-- ==== Sys2Proof/Word.lean ====
section
/-! DEFINITION. The two word types the block moves: the byte of the host's buffer and the 9-bit input word
(30_encoding.md R61). Bit 0 is the least significant bit and every value is unsigned (00_scope.md R10, R11). -/

namespace Sys2Proof

/-- A byte of the host's buffer, `in_data` (R60, R61). -/
abbrev Byte := BitVec 8

/-- An input word `w = {in_kind, in_data[7:0]}`, 9 bits (R61). -/
abbrev InputWord := BitVec 9

end Sys2Proof
end

