-- ==== Sys2Proof/Syntax.lean ====
section
/-! DEFINITION. The three operations an input word can select (30_encoding.md R62, spec/opcode_table.json). -/

namespace Sys2Proof

/-- One constructor per row of spec/opcode_table.json. The BYTE operations carry the whole byte `b = w[7:0]`, as
41_input_words.md R102 and R103 list it among their operands; END carries the eight bits it ignores (R64). -/
inductive Instr where
  /-- BYTE_CONT: a byte with the continuation bit set (R102) -/
  | byteCont (b : Byte)
  /-- BYTE_LAST: a byte with the continuation bit clear (R103) -/
  | byteLast (b : Byte)
  /-- END: the buffer is exhausted (R104); `low` is `w[7:0]`, ignored (R64) -/
  | endWord (low : Byte)
  deriving DecidableEq, Repr

end Sys2Proof
end

