-- ==== Sys2Proof/WellFormed.lean ====
section
/-! DEFINITION. Which instruction terms stand for an input word: a BYTE_CONT's byte has bit 7 set and a BYTE_LAST's has
it clear (41_input_words.md R102, R103); every END does (30_encoding.md R64). -/

namespace Sys2Proof

/-- The continuation bit the operation needs is the one its byte has (R62). -/
def Instr.wellFormed : Instr → Bool
  | .byteCont b => b.getLsbD 7
  | .byteLast b => !b.getLsbD 7
  | .endWord _ => true

end Sys2Proof
end

