-- ==== Sys2Proof/Decode.lean ====
section
/-! DEFINITION. Decoding an input word into its operation, total on all 512 words (30_encoding.md R61-R65), and the
encoder written from the same table. No word is illegal (R65), so the word decoder refuses nothing; only
`decodeTableWord` can, for a number that is no 9-bit word. -/

namespace Sys2Proof

/-- An input word from the two ports it is driven on: `w = {in_kind, in_data[7:0]}` (R61). -/
def wordOf (kind : Bool) (data : Byte) : InputWord := BitVec.ofBool kind ++ data

/-- Field `K`, bit 8: 0 = BYTE, 1 = END (R61). -/
def kindBit (w : InputWord) : Bool := w.getLsbD 8

/-- Field `C`, bit 7: the continuation bit of a BYTE word (R61). -/
def contBit (w : InputWord) : Bool := w.getLsbD 7

/-- Bits 7..0: the byte of a BYTE word, ignored bits of an END word (R61, R64). -/
def dataBits (w : InputWord) : Byte := w.extractLsb' 0 8

/-- Field `P`, bits 6..0 of a byte: its payload, `b & 0x7F` (R61, R63). -/
def payload (b : Byte) : BitVec 7 := b.extractLsb' 0 7

/-- Operation selection (R62, 41_input_words.md R101). -/
def decode (w : InputWord) : Instr :=
  if kindBit w then .endWord (dataBits w)
  else if contBit w then .byteCont (dataBits w)
  else .byteLast (dataBits w)

/-- The input word of an instruction, from the "encoding" column of spec/opcode_table.json: `01ppppppp`, `00ppppppp`,
`1xxxxxxxx`. -/
def encode : Instr → InputWord
  | .byteCont b => 0b01#2 ++ payload b
  | .byteLast b => 0b00#2 ++ payload b
  | .endWord low => 0b1#1 ++ low

/-- The number `w` as a 9-bit input word; a number with a bit set above bit 8 is none (R61: "every word is 9 bits"). -/
def tableWord (w : Nat) : Option InputWord :=
  if w < 512 then some (BitVec.ofNat 9 w) else none

/-- The instruction read from a table word (log 13). A word is one 9-bit unit with no byte order (20_memory.md R45), so
its bits are numbered as the table numbers them, and the bits the table's whole-byte width adds above bit 8 are 0. -/
def decodeTableWord (_nbits w : Nat) : Option Instr := (tableWord w).map decode

/-- The input word a host sends for a byte of its buffer: a BYTE word, kind 0 (R61, R70). -/
def byteWord (b : Byte) : InputWord := wordOf false b

/-- The END word as a test assembler writes it, `0x100` (R64, R70). -/
def endOfBuffer : InputWord := 0x100#9

end Sys2Proof
end

