-- ==== Sys2Proof/Config.lean ====
section
/-! DEFINITION. What one implementation of the block fixes when it is built, `W` and `TOPBITS` (00_scope.md R5, R7, R9),
the constants derived from them (R6, R8), and the values the spec leaves free (40_datapath.md R88, 10_state.md R33). -/

namespace Sys2Proof

/-- Parameter `TOPBITS` (R7): what happens to payload bits that a shift moves to bit position `W` or above. -/
inductive TopBits where
  /-- those bits are discarded (the reference instance) -/
  | truncate
  /-- any of those bits being 1 makes the byte MALFORMED -/
  | reject
  deriving DecidableEq, Repr

/-- The block's two implementation parameters (R5, R7); it has no other (R9). -/
structure Params where
  /-- `W` (ACC_WIDTH), the width of the accumulator and of the result value (R5) -/
  W : Nat
  /-- `TOPBITS` (R7) -/
  topBits : TopBits
  /-- "It must satisfy `W >= 32`" (R5) -/
  wide : 32 ≤ W
  deriving DecidableEq, Repr

/-- `MAXB = ceil(W / 7)`, the largest number of bytes one varint may have (R6). -/
def Params.MAXB (p : Params) : Nat := (p.W + 6) / 7

/-- `CW = floor(log2(MAXB + 1)) + 1`, the width of the byte counter and of the count field (R8). -/
def Params.CW (p : Params) : Nat := Nat.log2 (p.MAXB + 1) + 1

/-- The reference instance of the spec: `W = 64`, `TOPBITS = TRUNCATE` (R5, R7; 92_eei_decisions.md D1, D2). -/
def Params.reference : Params := ⟨64, .truncate, by decide⟩

/-- Free value (log 6): what the datapath drives on `acc_next` when `fail = 1`; "its value is not specified" (R88). -/
opaque Config.accNextOnFail (p : Params) (acc : BitVec p.W) (cnt : BitVec p.CW) (b : Byte) : BitVec p.W

/-- Free values (log 5): the `n`th draw, `w` bits wide, for a register before the first reset, when "every register
holds an unspecified value" (R33). -/
opaque Config.freeBits (w n : Nat) : BitVec w

end Sys2Proof
end

