-- ==== Sys2Proof/Machine/State.lean ====
section
/-! DEFINITION. The block's registers, its result records, the host's pins, and the whole state of a run as plain data
(10_state.md R20, R25, R32, R33; 42_result_channel.md R138; 30_encoding.md R60, R66, R67). -/

namespace Sys2Proof.Machine

/-- The status of a record `Emit` writes (30_encoding.md R67). Code `0b11` is reserved and no rule emits it. -/
inductive Status where
  /-- a varint was decoded -/
  | ok
  /-- the buffer ended before a byte with continuation bit 0 -/
  | insufficient
  /-- the shift for the byte was not representable, or (REJECT) payload bits would be lost -/
  | malformed
  deriving DecidableEq, Repr

/-- The six registers of one block, "No other state exists" (R20). -/
structure Regs (p : Params) where
  /-- accumulator, the value of the varint in progress (R21) -/
  acc : BitVec p.W
  /-- byte counter, the bytes of the varint in progress consumed so far (R22) -/
  cnt : BitVec p.CW
  /-- result valid (R25) -/
  ov : Bool
  /-- result status, a 2-bit code (R25, R67) -/
  os : BitVec 2
  /-- result value (R25) -/
  oval : BitVec p.W
  /-- result byte count (R25) -/
  ocnt : BitVec p.CW
  deriving DecidableEq, Repr

/-- Every register's reset value (R32). -/
def Regs.reset (p : Params) : Regs p :=
  { acc := 0, cnt := 0, ov := false, os := 0b00, oval := 0, ocnt := 0 }

/-- A result record, its three fields as the ports drive them (R66). -/
structure Record (p : Params) where
  status : BitVec 2
  value : BitVec p.W
  count : BitVec p.CW
  deriving DecidableEq, Repr

/-- What the host drives on the block's input ports in the cycle before one rising edge of `clk` (R60). `none` is a pin
whose value is unknown (for `inData`, at least one unknown bit): R137 and R185 say when a host may drive one (log 4). -/
structure Pins where
  rst : Option Bool
  inValid : Option Bool
  inKind : Option Bool
  inData : Option Byte
  outReady : Option Bool
  deriving DecidableEq, Repr

/-- What the block drives on its output ports (R60, R132, R135). -/
structure Outputs (p : Params) where
  inReady : Bool
  outValid : Bool
  outStatus : BitVec 2
  outValue : BitVec p.W
  outCount : BitVec p.CW
  deriving DecidableEq, Repr

/-- The state of a run: the block's registers and reset-applied flag (R20, R138), and beside them what the spec keeps
outside the block: its parameters (R5, R7; log 1), the host's plan (R136; log 2), the host's offer still waiting (R185;
log 4), the records the host has taken (R131; log 8), and the free values drawn so far (R33; log 5). -/
structure State where
  /-- `W` and `TOPBITS`, fixed when the block is built (R27) -/
  params : Params
  /-- the six registers (R20) -/
  regs : Regs params
  /-- a reset edge has happened (R138) -/
  resetApplied : Bool
  /-- the pins the host drives at the coming edges, the next first (R60, R136) -/
  plan : List Pins
  /-- the word offered in the cycle before the last edge and not accepted there (R185) -/
  offered : Option InputWord
  /-- the records handed over to the host, oldest first (R131) -/
  taken : List (Record params)
  /-- free values drawn so far for the registers before the first reset (R33) -/
  draws : Nat
  deriving DecidableEq, Repr

/-- The machine never faults: errors are result records, and "No other error exists" (60_exceptions.md R150, R154).
Nobody raises a fault, which is safe (log 10). -/
inductive Fault
  deriving DecidableEq, Repr

/-- Why a step has no meaning. -/
inductive Refusal where
  /-- an instruction the model gives no meaning yet; raised by `exec`'s arms only (there is none left); safe -/
  | notModelled (mnemonic : String)
  /-- the host drives an unknown value where R137 (duties 1, 2) and R185 forbid it; raised by `clockEdge`; "a model
  refuses it" (R154). Unsafe for hosts that break the duty, which no claim covers (93_implementation_defined.md I10) -/
  | unknownInput
  /-- the host withdraws or changes a word it offered before it is accepted (R137 duty 1, R185); raised by `clockEdge`;
  unsafe only for hosts that break the duty (I10) -/
  | unstableOffer
  /-- the host uses the block before its first reset (R137 duty 3, R183); raised by `clockEdge` for an offer, and by a
  meaning asked to accept a word there (R138: `Accept` needs "reset applied"); unsafe only for hosts that break the
  duty (I10) -/
  | useBeforeReset
  deriving DecidableEq, Repr

/-- The block right after reset, for any parameters: every register at its reset value (R32), the reset applied
(R138), and nothing planned, offered or taken. -/
def State.resetOf (p : Params) : State :=
  { params := p, regs := Regs.reset p, resetApplied := true, plan := [], offered := none, taken := [], draws := 0 }

/-- The reference instance right after reset (R5, R7, R32). -/
def State.reset : State := State.resetOf Params.reference

end Sys2Proof.Machine
end

