-- ==== Sys2Proof/Machine/Ops.lean ====
section
/-! DEFINITION. The operations over the block's registers and its channels: `Emit`, the end of an attempt, the
acceptance of a word, `Take`, `Reset`, the state before the first reset, the ready and valid outputs, and the host's
duties (42_result_channel.md R130-R138, 70_reset_and_hazards.md R180-R185). `Emit` is the one operation every error goes
through: the block has no exception to take and none to return from (60_exceptions.md R150). -/

namespace Sys2Proof.Machine

/-- The 2-bit code of a status (30_encoding.md R67). -/
def Status.code : Status → BitVec 2
  | .ok => 0b00
  | .insufficient => 0b01
  | .malformed => 0b10

/-- `Emit(s, v, c)` (R130): all four registers of the result, in the same step. -/
def emit {p : Params} (st : Status) (v : BitVec p.W) (c : BitVec p.CW) (r : Regs p) : Regs p :=
  { r with ov := true, os := st.code, oval := v, ocnt := c }

/-- `acc <- 0` and `cnt <- 0`, as every rule that finishes a varint writes them together (10_state.md R23). -/
def clearAttempt {p : Params} (r : Regs p) : Regs p := { r with acc := 0, cnt := 0 }

/-- `cnt + 1`, the count with the byte being accepted. It is exact while `cnt <= MAXB` (R22; log 9). -/
def nextCount {p : Params} (r : Regs p) : BitVec p.CW := r.cnt + 1

/-- The step `Accept(w)` around the rule `f` that R101 selects (41_input_words.md R100, R138): it needs a reset applied
and `ov = 0`. While a record waits, a word "has no effect and is not consumed" (R100, R135; log 7); before the first
reset the host may send none (R137 duty 3, R183). -/
def accept (s : State) (f : Regs s.params → Regs s.params) : Host.Outcome State Fault Refusal :=
  if s.resetApplied then
    if s.regs.ov then .next s else .next { s with regs := f s.regs }
  else .refused .useBeforeReset

/-- The record in the result register (R25, R131). -/
def currentRecord {p : Params} (r : Regs p) : Record p := { status := r.os, value := r.oval, count := r.ocnt }

/-- The step `Take` (R131): `ov <- 0`, and the record `(os, oval, ocnt)` goes to the host. -/
def takeRecord (s : State) : State :=
  { s with regs := { s.regs with ov := false }, taken := s.taken ++ [currentRecord s.regs] }

/-- The step `Reset` (70_reset_and_hazards.md R180): every register takes its reset value and nothing else happens; from
then on a reset has been applied (R138). -/
def resetBlock (s : State) : State := { s with regs := Regs.reset s.params, resetApplied := true }

/-- Six registers of unspecified contents, the draws `n` to `n + 5` (R33; log 5). -/
def freeRegs (p : Params) (n : Nat) : Regs p :=
  { acc := Config.freeBits p.W n
    cnt := Config.freeBits p.CW (n + 1)
    ov := (Config.freeBits 1 (n + 2)).getLsbD 0
    os := Config.freeBits 2 (n + 3)
    oval := Config.freeBits p.W (n + 4)
    ocnt := Config.freeBits p.CW (n + 5) }

/-- Draw the registers afresh: their contents are unspecified (R33). -/
def redraw (s : State) : State := { s with regs := freeRegs s.params s.draws, draws := s.draws + 6 }

/-- The state before the first reset (R33, R183): registers unspecified, no reset applied. The draws start at `n`. -/
def State.powerOn (p : Params) (n : Nat) : State :=
  { params := p, regs := freeRegs p n, resetApplied := false, plan := [], offered := none, taken := [], draws := n + 6 }

/-- `in_ready = NOT ov AND NOT rst` (R135). -/
def inReady (rst ov : Bool) : Bool := !ov && !rst

/-- `out_valid = ov AND NOT rst` (R132). -/
def outValid (rst ov : Bool) : Bool := ov && !rst

/-- The block's output ports in a cycle with reset input `rst` (R132, R135). -/
def outputs {p : Params} (rst : Bool) (r : Regs p) : Outputs p :=
  { inReady := inReady rst r.ov
    outValid := outValid rst r.ov
    outStatus := r.os
    outValue := r.oval
    outCount := r.ocnt }

/-- What the host may read of the outputs: the record while `out_valid = 1`, and nothing otherwise (R25, R132). -/
def State.visibleRecord (rst : Bool) (s : State) : Option (Record s.params) :=
  if outValid rst s.regs.ov then some (currentRecord s.regs) else none

/-- The word on `in_kind` and `in_data`, if no bit of it is unknown (R61). -/
def Pins.word (pins : Pins) : Option InputWord :=
  match pins.inKind, pins.inData with
  | some k, some d => some (wordOf k d)
  | _, _ => none

/-- The word the host offers in this cycle: the one on the ports while `in_valid = 1` (R100); while `in_valid = 0` the
ports are ignored (R185). -/
def Pins.offer (pins : Pins) : Option InputWord := if pins.inValid = some true then pins.word else none

/-- `rst`, `in_valid` and `out_ready` have known values, as they must in every cycle after the first reset (R137
duty 2; log 14 says where the first reset ends). -/
def Pins.controlsKnown (pins : Pins) : Bool := pins.rst.isSome && pins.inValid.isSome && pins.outReady.isSome

/-- The first of the host's duties (R137) that these pins break in this state, if any (log 4): unknown values (duties 1
and 2), an offered word withdrawn or changed (duty 1, R185), an offer before the first reset (duty 3, R183).
DESIGN CHOICE (log 14): duty 2's "after the first reset" starts with the cycle after the first edge with `rst = 1`, so it
holds in the later cycles of a first reset that keeps `rst = 1` for several (R105, R181 allow either reading). -/
def dutyBroken (pins : Pins) (s : State) : Option Refusal :=
  if s.resetApplied && !pins.controlsKnown then some .unknownInput
  else if pins.inValid = some true ∧ pins.word = none then some .unknownInput
  else if s.offered.isSome ∧ pins.offer ≠ s.offered then some .unstableOffer
  else if s.resetApplied = false ∧ pins.rst ≠ some true ∧ pins.inValid = some true then some .useBeforeReset
  else none

/-- The edge of a cycle in which no word is accepted and no reset happens: the host's offer stays offered (R100, R185). -/
def noteOffer (pins : Pins) (s : State) : State := { s with offered := pins.offer }

/-- The word the block accepts at this edge, with `rst = 0`: the host's offer if `in_ready = 1` (R100). -/
def acceptedWord (pins : Pins) (s : State) : Option InputWord :=
  if inReady false s.regs.ov then pins.offer else none

/-- A record is handed over at this edge, with `rst = 0` (R131). -/
def handsOver (pins : Pins) (s : State) : Bool := outValid false s.regs.ov && pins.outReady = some true

/-- An edge before the first reset that is no reset. With `rst = 0` nothing happens (R138 `Stutter`); with `rst` unknown,
which duty 2 allows before the first reset, the registers stay unspecified and are drawn afresh (R33; log 5). -/
def preResetEdge (pins : Pins) (s : State) : State := if pins.rst = some false then s else redraw s

/-- A host that offers the word `w` and is ready to take a record, with `rst = 0`. -/
def Pins.sending (w : InputWord) : Pins :=
  { rst := some false, inValid := some true, inKind := some (kindBit w), inData := some (dataBits w)
    outReady := some true }

/-- A host that offers nothing and is ready to take a record, with `rst = 0`. -/
def Pins.receiving : Pins :=
  { rst := some false, inValid := some false, inKind := none, inData := none, outReady := some true }

/-- A host that offers nothing and takes nothing, with `rst = 0`. -/
def Pins.idle : Pins :=
  { rst := some false, inValid := some false, inKind := none, inData := none, outReady := some false }

/-- A host that asserts `rst` and offers nothing (30_encoding.md R70 `RESET`). -/
def Pins.resetting : Pins :=
  { rst := some true, inValid := some false, inKind := none, inData := none, outReady := some false }

end Sys2Proof.Machine
end

