-- ==== Sys2Proof/Machine/Operands.lean ====
section
/-! DEFINITION. The one operand form of the block: a byte's payload, zero-extended to `W` bits and shifted by `7 * cnt`
(30_encoding.md R63, 40_datapath.md R81, R83). The payload field itself is `payload` of Decode.lean. -/

namespace Sys2Proof.Machine

/-- Shift amount `sh = 7 * cnt`, an exact integer (R81). -/
def shiftAmount {p : Params} (cnt : BitVec p.CW) : Nat := 7 * cnt.toNat

/-- Shifted payload: `(zext_W(b[6:0]) << sh) mod 2^W` (R63, R83). -/
def shiftedPayload (p : Params) (cnt : BitVec p.CW) (b : Byte) : BitVec p.W :=
  (payload b).zeroExtend p.W <<< shiftAmount cnt

end Sys2Proof.Machine
end

