-- ==== Sys2Proof/Machine/Flags.lean ====
section
/-! DEFINITION. The block has no flags register and no condition codes (10_state.md R29). The one-bit conditions its
datapath computes for the byte being accepted stand here (40_datapath.md R82, R84, R85, R87, R88). -/

namespace Sys2Proof.Machine

/-- Shift check: `shift_ovf = (sh >= W)` (R82; `>=` by 90_conflicts.md C3). -/
def shiftOvf (p : Params) (cnt : BitVec p.CW) : Bool := decide (shiftAmount cnt ≥ p.W)

/-- Lost payload bits: `shift_ovf ? 0 : (P >> (W - sh))` (R84, R89). -/
def lostBits (p : Params) (cnt : BitVec p.CW) (b : Byte) : BitVec 7 :=
  if shiftOvf p cnt then 0 else payload b >>> (p.W - shiftAmount cnt)

/-- Top-bits check: `top_fail = (TOPBITS = REJECT) and (shift_ovf = 0) and (lost != 0)` (R85). -/
def topFail (p : Params) (cnt : BitVec p.CW) (b : Byte) : Bool :=
  decide (p.topBits = .reject) && !shiftOvf p cnt && lostBits p cnt b != 0

/-- Failure output: `fail = shift_ovf OR top_fail` (R88). -/
def failBit (p : Params) (cnt : BitVec p.CW) (b : Byte) : Bool := shiftOvf p cnt || topFail p cnt b

/-- Last-byte test: `last = NOT b[7]` (R87). -/
def lastBit (b : Byte) : Bool := !b.getLsbD 7

end Sys2Proof.Machine
end

