-- ==== Sys2Proof/Machine/Datapath.lean ====
section
/-! DEFINITION. The combinational datapath `byte_accumulator_shift_add` (40_datapath.md R80, R86, R89). -/

namespace Sys2Proof.Machine

/-- The datapath's outputs (R80). -/
structure SAOut (p : Params) where
  fail : Bool
  accNext : BitVec p.W
  last : Bool
  deriving DecidableEq, Repr

/-- `SA(acc, cnt, b)` (R80, R89). With `fail = 0`, `acc_next = (acc + shifted) mod 2^W` (R86); with `fail = 1`,
`acc_next` is a free value (R88; log 6). -/
def SA {p : Params} (acc : BitVec p.W) (cnt : BitVec p.CW) (b : Byte) : SAOut p :=
  { fail := failBit p cnt b
    accNext := if failBit p cnt b then Config.accNextOnFail p acc cnt b else acc + shiftedPayload p cnt b
    last := lastBit b }

end Sys2Proof.Machine
end

