-- ==== Sys2Proof/Machine/InputWords.lean ====
section
/-! DEFINITION. The meanings of the three input-word operations (41_input_words.md R102, R103, R104). -/

namespace Sys2Proof.Machine

/-- BYTE_CONT on the registers (R102). -/
def byteContRule {p : Params} (b : Byte) (r : Regs p) : Regs p :=
  if (SA r.acc r.cnt b).fail then clearAttempt (emit .malformed 0 (nextCount r) r)
  else { r with acc := (SA r.acc r.cnt b).accNext, cnt := nextCount r }

/-- BYTE_LAST on the registers (R103). -/
def byteLastRule {p : Params} (b : Byte) (r : Regs p) : Regs p :=
  if (SA r.acc r.cnt b).fail then clearAttempt (emit .malformed 0 (nextCount r) r)
  else clearAttempt (emit .ok (SA r.acc r.cnt b).accNext (nextCount r) r)

/-- END on the registers (R104). -/
def endRule {p : Params} (r : Regs p) : Regs p := clearAttempt (emit .insufficient 0 r.cnt r)

/-- BYTE_CONT: a byte with the continuation bit set (R102). -/
def execByteCont (b : Byte) (s : State) : Host.Outcome State Fault Refusal := accept s (byteContRule b)

/-- BYTE_LAST: a byte with the continuation bit clear (R103). -/
def execByteLast (b : Byte) (s : State) : Host.Outcome State Fault Refusal := accept s (byteLastRule b)

/-- END: the buffer is exhausted (R104); the low bits are ignored (R64). -/
def execEndWord (_low : Byte) (s : State) : Host.Outcome State Fault Refusal := accept s endRule

end Sys2Proof.Machine
end

