-- ==== Sys2Proof/Machine/Dispatch.lean ====
section
/-! DEFINITION. The meaning of each operation, one arm per row of spec/opcode_table.json (41_input_words.md R101). -/

namespace Sys2Proof.Machine

/-- Dispatch of an accepted word's operation: "No other case exists" (R101). -/
def exec (i : Instr) (s : State) : Host.Outcome State Fault Refusal :=
  match i with
  | .byteCont b => Sys2Proof.Machine.execByteCont b s
  | .byteLast b => Sys2Proof.Machine.execByteLast b s
  | .endWord low => Sys2Proof.Machine.execEndWord low s

end Sys2Proof.Machine
end

