-- ==== Sys2Proof/Machine/Edge.lean ====
section
/-! DEFINITION. One rising edge of `clk` (42_result_channel.md R138, 70_reset_and_hazards.md R180, R181, R188): exactly
one of Reset, Accept, Take and Stutter happens at it, and a host that breaks a duty has no move (R137). -/

namespace Sys2Proof.Machine

/-- One rising edge with the host driving `pins` (log 2, log 4). Reset dominates every transfer (R181). -/
def clockEdge (pins : Pins) (s : State) : Host.Outcome State Fault Refusal :=
  match dutyBroken pins s with
  | some r => .refused r
  | none =>
    if pins.rst = some true then .next (noteOffer pins (resetBlock s))
    else if s.resetApplied = false then .next (noteOffer pins (preResetEdge pins s))
    else
      match acceptedWord pins s with
      | some w => exec (decode w) { s with offered := none }
      | none => if handsOver pins s then .next (noteOffer pins (takeRecord s)) else .next (noteOffer pins s)

/-- The host's next cycle on a state: its pins are used up, and the edge happens. With nothing planned the step is a
`Stutter`, which is always enabled (R138, R105; log 2). DESIGN CHOICE (log 15): that is so while an offered word waits too.
An empty plan withdraws nothing (R137 duty 1): the step leaves `offered` as it is. -/
def nextEdge (s : State) : Host.Outcome State Fault Refusal :=
  match s.plan with
  | [] => .next s
  | pins :: rest => clockEdge pins { s with plan := rest }

/-- `s` with the word `w` next on the input channel: the host offers it in the coming cycle, nothing stops the block
from accepting it there (a reset applied, no record pending), and no other offer is outstanding (log 3). -/
def withOffer (w : InputWord) (s : State) : State :=
  { s with
    regs := { s.regs with ov := false }
    resetApplied := true
    plan := Pins.sending w :: s.plan
    offered := none }

end Sys2Proof.Machine
end

