-- ==== Sys2Proof/Machine/Step.lean ====
section
/-! DEFINITION. The step of the machine: one rising edge of `clk` with the host's next pins (42_result_channel.md R138). -/

namespace Sys2Proof.Machine

/-- One step (R13, R138; log 2). -/
def step (s : State) : Host.Outcome State Fault Refusal := nextEdge s

/-- `s` with the input word numbered `w` offered by the host in the next cycle (log 3). A number that is no 9-bit word
(R61) cannot be offered and changes nothing. -/
def State.withFetchWord (s : State) (_nbits w : Nat) : State :=
  match tableWord w with
  | some word => withOffer word s
  | none => s

end Sys2Proof.Machine
end

