-- ==== Sys2Proof/Safety.lean ====
section
/-! DEFINITION. The terms the claims are stated in: what a legal record and a legal state are (10_state.md R22-R24,
42_result_channel.md R133, R134), runs of several words and of an attentive host (R70, R54, R188), the value formula
(20_memory.md R44), and the software decode the block must agree with (R41, R54), written from the spec's algorithm over
plain numbers and not from the machine's operations. -/

namespace Sys2Proof.Machine

/-- A record as R67, R133 and R134 allow it: its status is not the reserved code, an error carries the value 0, and its
count lies in the row of R134's table for its status. -/
def Record.Legal {p : Params} (x : Record p) : Prop :=
  (x.status = 0b00 ∧ 1 ≤ x.count.toNat ∧ x.count.toNat ≤ p.MAXB) ∨
  (x.status = 0b01 ∧ x.value = 0 ∧ x.count.toNat ≤ p.MAXB) ∨
  (x.status = 0b10 ∧ x.value = 0 ∧
    (x.count.toNat = p.MAXB + 1 ∨ (p.topBits = .reject ∧ p.W % 7 ≠ 0 ∧ x.count.toNat = p.MAXB)))

/-- What holds of the registers in every state a reset reaches: the counter's bound (R22), the idle invariant (R23), the
bound on the accumulator (R24), no reserved status (R67), and a waiting record legal with the block idle behind it
(R156, R158). -/
def Regs.Inv {p : Params} (r : Regs p) : Prop :=
  r.cnt.toNat ≤ p.MAXB ∧
  (r.cnt = 0 → r.acc = 0) ∧
  r.acc.toNat < 2 ^ (7 * r.cnt.toNat) ∧
  r.os ≠ 0b11 ∧
  (r.ov = true → r.cnt = 0 ∧ r.acc = 0 ∧ (currentRecord r).Legal)

/-- The invariant of a run: the registers' invariant once a reset has been applied (R33 gives none before it), and every
record handed over so far legal. -/
def State.Inv (s : State) : Prop :=
  (s.resetApplied = true → s.regs.Inv) ∧ ∀ x ∈ s.taken, x.Legal

/-- `Accept` is enabled: a reset applied and no record pending (R100, R138). -/
def State.Ready (s : State) : Prop := s.resetApplied = true ∧ s.regs.ov = false

/-- `Ready` with no varint in progress: idle (R23), as the block stands after reset (R182). -/
def State.IdleReady (s : State) : Prop := s.Ready ∧ s.regs.cnt = 0 ∧ s.regs.acc = 0

/-- The host keeps its duties at this edge (R137), after a first reset: every control pin known, an offered word known,
and a word offered before and not yet accepted still offered. -/
def State.DutiesKept (s : State) (pins : Pins) : Prop :=
  s.resetApplied = true ∧ pins.controlsKnown = true ∧
  (pins.inValid = some true → pins.word ≠ none) ∧
  (s.offered = none ∨ pins.offer = s.offered)

/-- `k` steps one after another, stopping where one answers no next state. -/
def runSteps : Nat → State → Host.Outcome State Fault Refusal
  | 0, s => .next s
  | k + 1, s =>
    match step s with
    | .next t => runSteps k t
    | .fault r => .fault r
    | .refused r => .refused r

/-- Accepting a list of operations one after another, stopping where one answers no next state. -/
def execAll : List Instr → State → Host.Outcome State Fault Refusal
  | [], s => .next s
  | i :: is, s =>
    match exec i s with
    | .next t => execAll is t
    | .fault r => .fault r
    | .refused r => .refused r

/-- One word with a host that takes a record as soon as it is offered (R70). -/
def serveWord (w : InputWord) (s : State) : Host.Outcome State Fault Refusal :=
  match exec (decode w) s with
  | .next t => .next (if t.regs.ov then takeRecord t else t)
  | .fault r => .fault r
  | .refused r => .refused r

/-- A list of words with a host that takes every record as soon as it is offered (R54, R70). -/
def serveAll : List InputWord → State → Host.Outcome State Fault Refusal
  | [], s => .next s
  | w :: ws, s =>
    match serveWord w s with
    | .next t => serveAll ws t
    | .fault r => .fault r
    | .refused r => .refused r

/-- The operations of a buffer's bytes sent in order (R41). -/
def bufferInstrs (bs : List Byte) : List Instr := bs.map fun b => decode (byteWord b)

/-- `sum over i of (p_i << 7*i)`, the first byte at index `n` (R21, R44). -/
def groupSum (n : Nat) : List Byte → Nat
  | [] => 0
  | b :: bs => ((payload b).toNat <<< (7 * n)) + groupSum (n + 1) bs

/-- The registers of an idle block with a record in its result register: what `Emit` and the end of an attempt leave
(R130, R23). -/
def Regs.emitted {p : Params} (st : Status) (v : BitVec p.W) (c : BitVec p.CW) : Regs p :=
  { acc := 0, cnt := 0, ov := true, os := st.code, oval := v, ocnt := c }

/-- The number of BYTE words among input words (R108). -/
def byteWords : List InputWord → Nat
  | [] => 0
  | w :: ws => (if w.getLsbD 8 then 0 else 1) + byteWords ws

/-- The sum of the count fields of a list of records (R108). -/
def countSum {p : Params} : List (Record p) → Nat
  | [] => 0
  | x :: xs => x.count.toNat + countSum xs

/-- The outcome of the software decode (R41): `count` is the number of bytes it consumed. -/
inductive SoftResult where
  | ok (value count : Nat) (rest : List Byte)
  | insufficient (count : Nat)
  | malformed (count : Nat) (rest : List Byte)
  deriving DecidableEq, Repr

/-- The software decode loop (R2, R44, R155; 90_conflicts.md C3, C4) on numbers: `acc` is the sum so far and `n` the
index of the next byte. -/
def softDecode (p : Params) (acc n : Nat) : List Byte → SoftResult
  | [] => .insufficient n
  | b :: bs =>
    if 7 * n ≥ p.W then .malformed (n + 1) bs
    else if p.topBits = .reject ∧ b.toNat % 128 * 2 ^ (7 * n) ≥ 2 ^ p.W then .malformed (n + 1) bs
    else if b.toNat < 128 then .ok ((acc + b.toNat % 128 * 2 ^ (7 * n)) % 2 ^ p.W) (n + 1) bs
    else softDecode p ((acc + b.toNat % 128 * 2 ^ (7 * n)) % 2 ^ p.W) (n + 1) bs

/-- The record that corresponds to a software outcome (R41, R133, R134). -/
def SoftResult.record (p : Params) : SoftResult → Record p
  | .ok v c _ => { status := 0b00, value := BitVec.ofNat p.W v, count := BitVec.ofNat p.CW c }
  | .insufficient c => { status := 0b01, value := 0, count := BitVec.ofNat p.CW c }
  | .malformed c _ => { status := 0b10, value := 0, count := BitVec.ofNat p.CW c }

/-- The software loop of R54, which stops at the first outcome that is not OK. -/
def softLoop (p : Params) : Nat → List Byte → List (Record p)
  | 0, _ => []
  | fuel + 1, bs =>
    match softDecode p 0 0 bs with
    | .ok v c rest => (SoftResult.ok v c rest).record p :: softLoop p fuel rest
    | o => [o.record p]

/-- The records the block gives for a buffer and its END: as the software loop, but going on with the byte after a
malformed one (R54, R156). -/
def streamRecords (p : Params) : Nat → List Byte → List (Record p)
  | 0, _ => []
  | fuel + 1, bs =>
    match softDecode p 0 0 bs with
    | .ok v c rest => (SoftResult.ok v c rest).record p :: streamRecords p fuel rest
    | .malformed c rest => (SoftResult.malformed c rest).record p :: streamRecords p fuel rest
    | .insufficient c => [(SoftResult.insufficient c).record p]

/-- The canonical encoder `enc` of R70 (a test aid, R4), cut off after `fuel + 1` bytes. -/
def enc : Nat → Nat → List Byte
  | 0, v => [BitVec.ofNat 8 (v % 128)]
  | fuel + 1, v =>
    if v < 128 then [BitVec.ofNat 8 v] else BitVec.ofNat 8 (v % 128 + 128) :: enc fuel (v / 128)

/-- The pins of an eager host (R188): it offers each byte in turn, then takes the record. -/
def eagerPlan (bs : List Byte) : List Pins := (bs.map fun b => Pins.sending (byteWord b)) ++ [Pins.receiving]

/-- Two register sets that differ at most in the fields of a record already taken, which the host must not read (R25;
93_implementation_defined.md I4). -/
def Regs.SameButStale {p : Params} (r r' : Regs p) : Prop :=
  r.acc = r'.acc ∧ r.cnt = r'.cnt ∧ r.ov = r'.ov ∧
  (r.ov = true → r.os = r'.os ∧ r.oval = r'.oval ∧ r.ocnt = r'.ocnt)

end Sys2Proof.Machine
end

