-- ==== Sys2Proof/Certificates/Slice0/Obligations.lean ====
section
/-! DEFINITION. The statements for the provers, over every parameter set (`W >= 32`, both values of `TOPBITS`) unless a
statement names one. Where a statement says "some plan and offer", those two fields are the model's record of the host
(log 2, log 4) and no rule of the spec. -/

open Sys2Proof Sys2Proof.Machine

/-! ## Encoding (30_encoding.md) -/

/-- Decoding the word of a well-formed instruction gives it back, every word is the word of what it decodes to, and
every word decodes to a well-formed instruction (R62, R65). -/
def Obligations.DecodeAndEncodeAgree : Prop :=
  (∀ i : Instr, i.wellFormed = true → decode (encode i) = i) ∧
  (∀ w : InputWord, encode (decode w) = w) ∧
  (∀ w : InputWord, (decode w).wellFormed = true)

/-- Words written out from the encodings of R62 and the examples of 95_test_vectors.md decode to what they stand for. -/
def Obligations.WordsWrittenOutDecode : Prop :=
  decode 0b010001100#9 = .byteCont 0x8C ∧ decode 0b011111111#9 = .byteCont 0xFF ∧
  decode 0b000000010#9 = .byteLast 0x02 ∧ decode 0b001111111#9 = .byteLast 0x7F ∧
  decode 0b100000000#9 = .endWord 0x00 ∧ decode 0b111111111#9 = .endWord 0xFF

/-- R62: the match and mask of each row select its operation, and the payload is `w[6:0]`. -/
def Obligations.WordSelectsOperationByMatchAndMask : Prop :=
  ∀ w : InputWord,
    (w &&& 0x180#9 = 0x080#9 ↔ ∃ b, decode w = .byteCont b ∧ payload b = w.extractLsb' 0 7) ∧
    (w &&& 0x180#9 = 0x000#9 ↔ ∃ b, decode w = .byteLast b ∧ payload b = w.extractLsb' 0 7) ∧
    (w &&& 0x100#9 = 0x100#9 ↔ ∃ low, decode w = .endWord low)

/-- R64: every END word has the same effect, whatever its low bits. -/
def Obligations.EndWordsActAlike : Prop :=
  ∀ (w w' : InputWord) (s : State), w.getLsbD 8 = true → w'.getLsbD 8 = true →
    exec (decode w) s = exec (decode w') s

/-! ## Parameters and datapath (00_scope.md, 40_datapath.md) -/

/-- R6 and R8 (both marked by the spec as derived): `MAXB` is the least number of bytes whose shifts reach `W`, a shift
is too large exactly from byte index `MAXB` on, and `CW` is the number of bits needed to hold `MAXB + 1`. -/
def Obligations.DerivedConstantsAreExact : Prop :=
  ∀ p : Params,
    (∀ n, p.W ≤ 7 * n ↔ p.MAXB ≤ n) ∧
    p.MAXB + 1 < 2 ^ p.CW ∧ 2 ^ (p.CW - 1) ≤ p.MAXB + 1 ∧
    (p.W = 64 → p.MAXB = 10 ∧ p.CW = 4) ∧ (p.W = 32 → p.MAXB = 5 ∧ p.CW = 3)

/-- R82: `shift_ovf = (sh >= W)`, equivalently `cnt >= MAXB` (and `cnt = MAXB` where `cnt <= MAXB`, R22), and then `fail = 1` whatever the byte is. -/
def Obligations.ShiftCheckFailsEveryByte : Prop :=
  ∀ (p : Params) (cnt : BitVec p.CW),
    (shiftOvf p cnt = true ↔ p.W ≤ 7 * cnt.toNat) ∧
    (shiftOvf p cnt = true ↔ p.MAXB ≤ cnt.toNat) ∧
    (cnt.toNat ≤ p.MAXB → (shiftOvf p cnt = true ↔ cnt.toNat = p.MAXB)) ∧
    (shiftOvf p cnt = true → ∀ (acc : BitVec p.W) (b : Byte), (SA acc cnt b).fail = true)

/-- R84: which payload bits a valid shift loses, and that TRUNCATE discards them without an error. -/
def Obligations.LostPayloadBits : Prop :=
  ∀ (p : Params) (acc : BitVec p.W) (cnt : BitVec p.CW) (b : Byte), shiftOvf p cnt = false →
    lostBits p cnt b = payload b >>> (p.W - 7 * cnt.toNat) ∧
    (7 * cnt.toNat + 7 ≤ p.W → lostBits p cnt b = 0) ∧
    (lostBits p cnt b ≠ 0 → cnt.toNat + 1 = p.MAXB ∧ p.W % 7 ≠ 0) ∧
    (p.W = 64 → cnt.toNat = 9 →
      lostBits p cnt b = (b.extractLsb' 1 6).zeroExtend 7 ∧
      (shiftedPayload p cnt b).toNat = (b.getLsbD 0).toNat * 2 ^ 63) ∧
    (p.W = 32 → cnt.toNat = 4 →
      lostBits p cnt b = (b.extractLsb' 4 3).zeroExtend 7 ∧
      (shiftedPayload p cnt b).toNat = (b.extractLsb' 0 4).toNat * 2 ^ 28) ∧
    (p.topBits = .truncate → (SA acc cnt b).fail = false ∧ (SA acc cnt b).accNext = acc + shiftedPayload p cnt b ∧
      (shiftedPayload p cnt b).toNat = ((payload b).toNat <<< (7 * cnt.toNat)) % 2 ^ p.W)

/-- R85 and R87: the top-bits check and the last-byte test. -/
def Obligations.TopBitsCheckAndLastByteTest : Prop :=
  ∀ (p : Params) (acc : BitVec p.W) (cnt : BitVec p.CW) (b : Byte),
    (topFail p cnt b = true ↔ p.topBits = .reject ∧ shiftOvf p cnt = false ∧ lostBits p cnt b ≠ 0) ∧
    (p.topBits = .truncate → topFail p cnt b = false) ∧
    (SA acc cnt b).last = !b.getLsbD 7

/-- R83: the shifted payload as a number, with every bit below the shift 0; with `shift_ovf = 1` it is not used: the
byte makes no difference to what BYTE_CONT and BYTE_LAST leave in the registers. -/
def Obligations.ShiftedPayloadIsTheShiftedNumber : Prop :=
  (∀ (p : Params) (cnt : BitVec p.CW) (b : Byte), shiftOvf p cnt = false →
    (shiftedPayload p cnt b).toNat = ((b.toNat % 128) <<< (7 * cnt.toNat)) % 2 ^ p.W ∧
    ∀ i, i < 7 * cnt.toNat → (shiftedPayload p cnt b).getLsbD i = false) ∧
  ∀ (p : Params) (r : Regs p) (b b' : Byte), shiftOvf p r.cnt = true →
    byteContRule b r = byteContRule b' r ∧ byteLastRule b r = byteLastRule b' r

/-- R86 (derived by the spec from R24): with the accumulator below `2^sh`, the addition does not carry and equals the
bitwise or. -/
def Obligations.AdditionNeverCarries : Prop :=
  ∀ (p : Params) (acc : BitVec p.W) (cnt : BitVec p.CW) (b : Byte),
    acc.toNat < 2 ^ (7 * cnt.toNat) → (SA acc cnt b).fail = false →
    acc.toNat + (shiftedPayload p cnt b).toNat < 2 ^ p.W ∧
    (SA acc cnt b).accNext = acc + shiftedPayload p cnt b ∧
    (SA acc cnt b).accNext = acc ||| shiftedPayload p cnt b

/-! ## The three operations (41_input_words.md) -/

/-- The register rule of R102: BYTE_CONT, wherever a word can be accepted, completes with the datapath's outputs. -/
def Obligations.ByteContWritesItsRegisters : Prop :=
  ∀ (s : State) (b : Byte), s.Ready →
    exec (.byteCont b) s = .next { s with regs :=
      if (SA s.regs.acc s.regs.cnt b).fail then
        { acc := 0, cnt := 0, ov := true, os := 0b10, oval := 0, ocnt := s.regs.cnt + 1 }
      else { s.regs with acc := (SA s.regs.acc s.regs.cnt b).accNext, cnt := s.regs.cnt + 1 } }

/-- The register rule of R103: BYTE_LAST, wherever a word can be accepted, completes with a record. -/
def Obligations.ByteLastWritesItsRegisters : Prop :=
  ∀ (s : State) (b : Byte), s.Ready →
    exec (.byteLast b) s = .next { s with regs :=
      if (SA s.regs.acc s.regs.cnt b).fail then
        { acc := 0, cnt := 0, ov := true, os := 0b10, oval := 0, ocnt := s.regs.cnt + 1 }
      else
        { acc := 0, cnt := 0, ov := true, os := 0b00,
          oval := (SA s.regs.acc s.regs.cnt b).accNext, ocnt := s.regs.cnt + 1 } }

/-- The register rule of R104: END, wherever a word can be accepted, completes with an INSUFFICIENT record; idle, its
count is 0, and at `cnt = MAXB` it is `MAXB`. -/
def Obligations.EndWritesItsRegisters : Prop :=
  ∀ (s : State) (low : Byte), s.Ready →
    exec (.endWord low) s = .next { s with regs :=
      { acc := 0, cnt := 0, ov := true, os := 0b01, oval := 0, ocnt := s.regs.cnt } }

/-- R130: `Emit` writes the four registers of the result with the status codes of R67 and leaves `acc` and `cnt`; no
accepted operation overwrites a record the host has not taken. -/
def Obligations.EmitWritesTheResultRegister : Prop :=
  (∀ (p : Params) (st : Status) (v : BitVec p.W) (c : BitVec p.CW) (r : Regs p),
    emit st v c r = { r with ov := true, os := st.code, oval := v, ocnt := c }) ∧
  Status.ok.code = 0b00 ∧ Status.insufficient.code = 0b01 ∧ Status.malformed.code = 0b10 ∧
  ∀ (i : Instr) (s t : State), exec i s = .next t → s.regs.ov = true → t = s

/-- BYTE_CONT in numbers (R102, R83, R86): below `MAXB`, and under REJECT with a payload that fits, the accumulator
gains the shifted payload, the counter one, and no record is emitted. -/
def Obligations.ByteContAccumulates : Prop :=
  ∀ (s : State) (b : Byte), s.Ready → s.regs.cnt.toNat < s.params.MAXB →
    (s.params.topBits = .truncate ∨ b.toNat % 128 * 2 ^ (7 * s.regs.cnt.toNat) < 2 ^ s.params.W) →
    ∃ r : Regs s.params, exec (.byteCont b) s = .next { s with regs := r } ∧
      r.acc.toNat = (s.regs.acc.toNat + b.toNat % 128 * 2 ^ (7 * s.regs.cnt.toNat)) % 2 ^ s.params.W ∧
      r.cnt.toNat = s.regs.cnt.toNat + 1 ∧
      r.ov = false ∧ r.os = s.regs.os ∧ r.oval = s.regs.oval ∧ r.ocnt = s.regs.ocnt

/-- BYTE_LAST in numbers (R103, R83, R86): under the same conditions, an OK record with the sum and the count. -/
def Obligations.ByteLastEmitsTheSum : Prop :=
  ∀ (s : State) (b : Byte), s.Ready → s.regs.cnt.toNat < s.params.MAXB →
    (s.params.topBits = .truncate ∨ b.toNat % 128 * 2 ^ (7 * s.regs.cnt.toNat) < 2 ^ s.params.W) →
    ∃ r : Regs s.params, exec (.byteLast b) s = .next { s with regs := r } ∧
      r.oval.toNat = (s.regs.acc.toNat + b.toNat % 128 * 2 ^ (7 * s.regs.cnt.toNat)) % 2 ^ s.params.W ∧
      r.ocnt.toNat = s.regs.cnt.toNat + 1 ∧ r.ov = true ∧ r.os = 0b00 ∧ r.acc = 0 ∧ r.cnt = 0

/-- R152: a BYTE word accepted at `cnt = MAXB` gives MALFORMED with value 0 and count `MAXB + 1`, whatever its byte. -/
def Obligations.ByteAtMaxbIsMalformed : Prop :=
  ∀ (s : State) (b : Byte), s.Ready → s.regs.cnt.toNat = s.params.MAXB →
    ∃ r : Regs s.params,
      exec (.byteCont b) s = .next { s with regs := r } ∧ exec (.byteLast b) s = .next { s with regs := r } ∧
      r.ov = true ∧ r.os = 0b10 ∧ r.oval = 0 ∧ r.ocnt.toNat = s.params.MAXB + 1 ∧
      (s.params.W = 64 → r.ocnt.toNat = 11) ∧ (s.params.W = 32 → r.ocnt.toNat = 6)

/-- R153: under REJECT a BYTE word at `cnt = MAXB - 1` with a lost payload bit gives MALFORMED with value 0 and count
`MAXB`; for `W = 64` and `W = 32` the bits are `b[6:1]` and `b[6:4]`; under TRUNCATE this never happens. -/
def Obligations.LostTopBitsAreMalformedUnderReject : Prop :=
  ∀ (s : State) (b : Byte), s.Ready → s.regs.cnt.toNat + 1 = s.params.MAXB →
    (s.params.topBits = .reject → lostBits s.params s.regs.cnt b ≠ 0 →
      ∃ r : Regs s.params,
        exec (.byteCont b) s = .next { s with regs := r } ∧ exec (.byteLast b) s = .next { s with regs := r } ∧
        r.ov = true ∧ r.os = 0b10 ∧ r.oval = 0 ∧ r.ocnt.toNat = s.params.MAXB) ∧
    (s.params.W = 64 → (lostBits s.params s.regs.cnt b ≠ 0 ↔ b.extractLsb' 1 6 ≠ 0)) ∧
    (s.params.W = 32 → (lostBits s.params s.regs.cnt b ≠ 0 ↔ b.extractLsb' 4 3 ≠ 0)) ∧
    (s.params.topBits = .truncate →
      (∃ r : Regs s.params, exec (.byteCont b) s = .next { s with regs := r } ∧ r.ov = false) ∧
      (∃ r : Regs s.params, exec (.byteLast b) s = .next { s with regs := r } ∧ r.ov = true ∧ r.os = 0b00))

/-- R151: INSUFFICIENT comes from an END word and from nothing else, with value 0 and the count of bytes consumed. -/
def Obligations.InsufficientComesFromEndOnly : Prop :=
  ∀ (i : Instr) (s : State), s.Ready →
    ∃ r : Regs s.params, exec i s = .next { s with regs := r } ∧
      ((r.ov = true ∧ r.os = 0b01) ↔ ∃ low, i = .endWord low) ∧
      (r.ov = true → r.os = 0b01 → r.oval = 0 ∧ r.ocnt = s.regs.cnt)

/-- R155: the order of the checks. END is never checked for overflow; a failing byte is MALFORMED whatever its
continuation bit; only then does the continuation bit decide between OK and no record; the two MALFORMED causes exclude
each other. -/
def Obligations.ChecksAreInOrder : Prop :=
  ∀ (s : State) (b : Byte), s.Ready →
    (∃ r : Regs s.params, exec (decode endOfBuffer) s = .next { s with regs := r } ∧ r.ov = true ∧ r.os = 0b01) ∧
    (shiftOvf s.params s.regs.cnt = true ∨ topFail s.params s.regs.cnt b = true →
      ∃ r : Regs s.params, exec (decode (byteWord b)) s = .next { s with regs := r } ∧ r.ov = true ∧ r.os = 0b10) ∧
    (shiftOvf s.params s.regs.cnt = false → topFail s.params s.regs.cnt b = false →
      ∃ r : Regs s.params, exec (decode (byteWord b)) s = .next { s with regs := r } ∧
        (r.ov = true ↔ b.getLsbD 7 = false) ∧ (r.ov = true → r.os = 0b00)) ∧
    ¬ (shiftOvf s.params s.regs.cnt = true ∧ topFail s.params s.regs.cnt b = true)

/-- Every record an accepted word emits is legal (R67, R133, R134), and the block is idle behind it (R156, R23). -/
def Obligations.EmittedRecordsAreLegalAndLeaveIdle : Prop :=
  ∀ (i : Instr) (s : State), s.Ready → s.regs.Inv →
    ∃ r : Regs s.params, exec i s = .next { s with regs := r } ∧
      (r.ov = true → (currentRecord r).Legal ∧ r.acc = 0 ∧ r.cnt = 0)

/-- The frame of BYTE_CONT, BYTE_LAST and END (R49, R25, R26): an accepted word changes nothing outside the six
registers, and leaves `os`, `oval` and `ocnt` as they were unless it raises `ov`. There is no memory. -/
def Obligations.WordsChangeOnlyTheirRegisters : Prop :=
  ∀ (i : Instr) (s t : State), exec i s = .next t →
    ∃ r : Regs s.params, t = { s with regs := r } ∧
      (s.regs.ov = true → r = s.regs) ∧
      (r.ov = false → r.os = s.regs.os ∧ r.oval = s.regs.oval ∧ r.ocnt = s.regs.ocnt)

/-- A word that meets a waiting record has no effect (R100, R135; that `exec` then answers the unchanged state is the
model's choice, log 7). -/
def Obligations.WordWaitsForPendingRecord : Prop :=
  ∀ (i : Instr) (s : State), s.resetApplied = true → s.regs.ov = true → exec i s = .next s

/-- No word is accepted before the first reset (R137 duty 3, R138; the refusal is the model's, log 5). -/
def Obligations.NoWordIsAcceptedBeforeReset : Prop :=
  ∀ (i : Instr) (s : State), s.resetApplied = false → exec i s = .refused .useBeforeReset

/-! ## The clock edge (42_result_channel.md, 70_reset_and_hazards.md) -/

/-- A step runs the decoded instruction: a word offered with `rst = 0` to a block with no record waiting, by a host that
keeps its duties, is accepted at the next edge as the operation it decodes to; the host's pins are used up and no offer
stays outstanding (R100, R101; log 2, log 4). -/
def Obligations.StepRunsTheOfferedWord : Prop :=
  ∀ (s : State) (pins : Pins) (rest : List Pins) (w : InputWord),
    s.plan = pins :: rest → s.DutiesKept pins → pins.rst = some false → s.regs.ov = false → pins.offer = some w →
    step s = exec (decode w) { s with plan := rest, offered := none }

/-- A word put next on the channel by `withFetchWord` is what the next step runs (log 3). -/
def Obligations.FetchWordRunsNext : Prop :=
  ∀ (s : State) (nbits w : Nat), w < 512 →
    ∃ i, decodeTableWord nbits w = some i ∧
      step (s.withFetchWord nbits w) =
        exec i { s with regs := { s.regs with ov := false }, resetApplied := true, offered := none }

/-- R180: at an edge with `rst = 1` every register takes its reset value and no other effect exists, whatever the
registers hold and whether or not a reset came before. Some plan and offer are left. -/
def Obligations.ResetEdgeResetsEveryRegister : Prop :=
  ∀ (s : State) (pins : Pins) (rest : List Pins),
    s.plan = pins :: rest → dutyBroken pins s = none → pins.rst = some true →
    ∃ (pl : List Pins) (o : Option InputWord),
      step s = .next { s with
        regs := { acc := 0, cnt := 0, ov := false, os := 0b00, oval := 0, ocnt := 0 }
        resetApplied := true
        plan := pl
        offered := o }

/-- R181: in a cycle with `rst = 1` neither output handshake is up, and a word offered then stays pending and is
accepted in the first cycle after `rst` falls. -/
def Obligations.ResetDominatesTransfers : Prop :=
  (∀ ov : Bool, inReady true ov = false ∧ outValid true ov = false) ∧
  ∀ (s : State) (pins pins' : Pins) (rest : List Pins) (w : InputWord),
    s.plan = pins :: pins' :: rest → dutyBroken pins s = none → pins.rst = some true → pins.offer = some w →
    pins'.rst = some false → pins'.outReady.isSome = true → pins'.inValid = some true → pins'.offer = some w →
    runSteps 2 s =
      exec (decode w) { s with
        regs := Regs.reset s.params
        resetApplied := true
        plan := rest
        offered := none }

/-- R182 (derived by the spec): after a reset edge the block is idle with no record pending and `in_ready = 1` while
`rst = 0`. -/
def Obligations.IdleAndReadyAfterReset : Prop :=
  ∀ (s t : State) (pins : Pins) (rest : List Pins),
    s.plan = pins :: rest → dutyBroken pins s = none → pins.rst = some true → step s = .next t →
    t.IdleReady ∧ (outputs false t.regs).inReady = true ∧ (outputs false t.regs).outValid = false

/-- R183: one reset edge takes the block from its unspecified state before the first reset to its reset state. -/
def Obligations.OneResetEdgeBoots : Prop :=
  ∀ (p : Params) (n : Nat),
    step { State.powerOn p n with plan := [Pins.resetting] } = .next { State.resetOf p with draws := n + 6 }

/-- R131: with `ov = 1`, `rst = 0` and the host ready, the record goes to the host (to `taken`, log 8) and `ov` falls; `os`, `oval`, `ocnt`,
`acc` and `cnt` stay, so no word is accepted at that edge. Some plan and offer are left. -/
def Obligations.TakeHandsTheRecordOver : Prop :=
  ∀ (s : State) (pins : Pins) (rest : List Pins),
    s.plan = pins :: rest → s.DutiesKept pins → pins.rst = some false → s.regs.ov = true →
    pins.outReady = some true →
    ∃ (pl : List Pins) (o : Option InputWord),
      step s = .next { s with
        regs := { s.regs with ov := false }
        taken := s.taken ++ [{ status := s.regs.os, value := s.regs.oval, count := s.regs.ocnt }]
        plan := pl
        offered := o }

/-- R135: `in_ready = NOT ov AND NOT rst`; while a record waits and the host does not take it, no word is accepted and
every register keeps its value. Some plan and offer are left. -/
def Obligations.NoWordIsAcceptedWhileARecordWaits : Prop :=
  (∀ rst ov : Bool, inReady rst ov = (!ov && !rst)) ∧
  ∀ (s : State) (pins : Pins) (rest : List Pins),
    s.plan = pins :: rest → s.DutiesKept pins → pins.rst = some false → s.regs.ov = true →
    pins.outReady = some false →
    ∃ (pl : List Pins) (o : Option InputWord), step s = .next { s with plan := pl, offered := o }

/-- R132: what the output ports drive, and that a waiting record stays stable over an edge that neither takes it nor
resets. -/
def Obligations.OutputsDriveTheRegisters : Prop :=
  ∀ (s : State) (rst : Bool),
    (outputs rst s.regs).outValid = (s.regs.ov && !rst) ∧
    (outputs rst s.regs).outStatus = s.regs.os ∧
    (outputs rst s.regs).outValue = s.regs.oval ∧
    (outputs rst s.regs).outCount = s.regs.ocnt ∧
    ((outputs rst s.regs).outValid = false → s.visibleRecord rst = none) ∧
    ∀ (t : State) (pins : Pins) (rest : List Pins), s.plan = pins :: rest → s.resetApplied = true →
      s.regs.ov = true → pins.rst = some false → pins.outReady = some false → step s = .next t →
      ∃ (pl : List Pins) (o : Option InputWord), t = { s with plan := pl, offered := o }

/-- R105: an edge with `rst = 0` at which no word transfers, because none is offered or a record waits, writes neither
`acc` nor `cnt` (nor `os`, `oval`, `ocnt`, R25); a hand-over may happen at it. Some plan, offer and list of records taken
are left. -/
def Obligations.EdgeWithoutAWordKeepsTheAttempt : Prop :=
  ∀ (s : State) (pins : Pins) (rest : List Pins),
    s.plan = pins :: rest → s.DutiesKept pins → pins.rst = some false → (pins.inValid = some false ∨ s.regs.ov = true) →
    ∃ (ov : Bool) (tk : List (Record s.params)) (pl : List Pins) (o : Option InputWord),
      step s = .next { s with regs := { s.regs with ov := ov }, taken := tk, plan := pl, offered := o } ∧
      (ov = s.regs.ov ∨ s.regs.ov = true ∧ ov = false ∧ pins.outReady = some true)

/-- R138 (derived by the spec): `Accept` and `Take` are never both enabled, and a word is accepted only where the host
offers one and `ov = 0`. -/
def Obligations.AcceptAndTakeExclude : Prop :=
  ∀ (s : State) (pins : Pins),
    ¬ ((acceptedWord pins s).isSome = true ∧ handsOver pins s = true) ∧
    ∀ w, acceptedWord pins s = some w → s.regs.ov = false ∧ pins.inValid = some true ∧ pins.word = some w

/-- R136: every liberty of a host that keeps its duties has a move: any pins with known controls, an offered word known,
and a standing offer kept, answer a next state; a host that plans nothing leaves everything as it is, an offer still
waiting included (the model's choice, logs 2 and 15). -/
def Obligations.EveryLibertyHasAMove : Prop :=
  (∀ s : State, s.plan = [] → step s = .next s) ∧
  ∀ (s : State) (pins : Pins) (rest : List Pins), s.plan = pins :: rest → s.DutiesKept pins → ∃ t, step s = .next t

/-- R137: a host that breaks a duty has no move (which refusal names it is the model's, log 4, log 5; so is that duty 2
begins after the first edge with `rst = 1`, log 14). -/
def Obligations.BrokenDutiesAreRefused : Prop :=
  ∀ (s : State) (pins : Pins) (rest : List Pins), s.plan = pins :: rest →
    (s.resetApplied = true → pins.controlsKnown = false → step s = .refused .unknownInput) ∧
    (pins.inValid = some true → pins.word = none → step s = .refused .unknownInput) ∧
    (s.resetApplied = true → pins.controlsKnown = true → (pins.inValid = some true → pins.word ≠ none) →
      s.offered ≠ none → pins.offer ≠ s.offered → step s = .refused .unstableOffer) ∧
    (s.resetApplied = false → s.offered = none → pins.rst ≠ some true → pins.inValid = some true →
      pins.word ≠ none → step s = .refused .useBeforeReset)

/-- Before the first reset (R33, R138): an idle edge with `rst = 0` changes nothing of the block, and one with `rst`
unknown leaves registers that are free values (the model's rendering, log 5). -/
def Obligations.RegistersStayUnspecifiedBeforeReset : Prop :=
  ∀ (s : State) (pins : Pins) (rest : List Pins),
    s.plan = pins :: rest → s.resetApplied = false → s.offered = none → pins.inValid = some false →
    (pins.rst = some false → step s = .next { s with plan := rest }) ∧
    (pins.rst = none → step s = .next { s with
      regs := freeRegs s.params s.draws
      draws := s.draws + 6
      plan := rest })

/-- R27 and R138: no step changes `W` or `TOPBITS`, and a reset once applied stays applied. -/
def Obligations.ParametersNeverChange : Prop :=
  ∀ s t : State, step s = .next t → t.params = s.params ∧ (s.resetApplied = true → t.resetApplied = true)

/-- R140 (derived by the spec): at every step a waiting record stays, or is handed over once, or is discarded by reset;
and where none waits, none is handed over. -/
def Obligations.RecordsAreNeitherLostNorDoubled : Prop :=
  ∀ s t : State, s.resetApplied = true → step s = .next t →
    (s.regs.ov = true →
      (∃ (pl : List Pins) (o : Option InputWord), t = { s with plan := pl, offered := o }) ∨
      (∃ (pl : List Pins) (o : Option InputWord), t = { s with
        regs := { s.regs with ov := false }, taken := s.taken ++ [currentRecord s.regs], plan := pl, offered := o }) ∨
      (∃ (pins : Pins) (rest : List Pins) (o : Option InputWord), s.plan = pins :: rest ∧ pins.rst = some true ∧
        t = { s with regs := Regs.reset s.params, plan := rest, offered := o })) ∧
    (s.regs.ov = false →
      ∃ (r : Regs s.params) (pl : List Pins) (o : Option InputWord), t = { s with regs := r, plan := pl, offered := o })

/-! ## Invariants (10_state.md, 42_result_channel.md) -/

/-- Every step keeps the invariant: counter bound (R22), idle invariant (R23), accumulator bound (R24), no reserved
status (R67), legal records waiting and taken (R133, R134), and the block idle behind a waiting record (R156). -/
def Obligations.StepKeepsTheInvariant : Prop :=
  ∀ s t : State, s.Inv → step s = .next t → t.Inv

/-- The invariant holds after reset, of every instance, and before the first reset. -/
def Obligations.ResetMeetsTheInvariant : Prop :=
  State.reset.Inv ∧ (∀ p : Params, (State.resetOf p).Inv) ∧ ∀ (p : Params) (n : Nat), (State.powerOn p n).Inv

/-- R22, R23, R24 (marked by the spec as derived) of every state reached from reset under any host plan. -/
def Obligations.ReachableStatesMeetTheBounds : Prop :=
  ∀ (p : Params) (pl : List Pins) (k : Nat) (t : State),
    runSteps k { State.resetOf p with plan := pl } = .next t →
    t.regs.cnt.toNat ≤ t.params.MAXB ∧ (t.regs.cnt = 0 → t.regs.acc = 0) ∧
    t.regs.acc.toNat < 2 ^ (7 * t.regs.cnt.toNat) ∧ t.regs.os ≠ 0b11

/-! ## Whole varints and streams (20_memory.md, 41_input_words.md) -/

/-- R21: from idle, the accumulator holds the sum of the shifted payloads of the continuation bytes consumed, reduced
`mod 2^W`, and the counter their number. Under REJECT the sum must fit, or a byte is MALFORMED instead (R153). -/
def Obligations.AccumulatorHoldsTheShiftedSum : Prop :=
  ∀ (s : State) (bs : List Byte), s.IdleReady → bs.length ≤ s.params.MAXB →
    (s.params.topBits = .truncate ∨ groupSum 0 bs < 2 ^ s.params.W) →
    execAll (bs.map Instr.byteCont) s = .next { s with regs := { s.regs with
      acc := BitVec.ofNat s.params.W (groupSum 0 bs)
      cnt := BitVec.ofNat s.params.CW bs.length } }

/-- R44: the value of a varint of `L` bytes is the sum of its payloads, the byte at index `n` shifted by `7*n`, reduced
`mod 2^W`; its record is OK with count `L`. Under REJECT the sum must fit (R153). -/
def Obligations.VarintValueIsTheGroupSum : Prop :=
  ∀ (s : State) (bs : List Byte) (b : Byte), s.IdleReady → bs.length + 1 ≤ s.params.MAXB →
    (s.params.topBits = .truncate ∨ groupSum 0 (bs ++ [b]) < 2 ^ s.params.W) →
    execAll (bs.map Instr.byteCont ++ [.byteLast b]) s = .next { s with regs :=
      { acc := 0, cnt := 0, ov := true, os := 0b00,
        oval := BitVec.ofNat s.params.W (groupSum 0 (bs ++ [b])),
        ocnt := BitVec.ofNat s.params.CW (bs.length + 1) } }

/-- R69 (derived by the spec): appending payload-0 bytes to a varint, within `MAXB` bytes, gives the same value with the
longer count. -/
def Obligations.OverlongVarintsKeepTheirValue : Prop :=
  ∀ (s : State) (bs : List Byte) (b : Byte) (k : Nat), s.IdleReady →
    (∀ x ∈ bs, x.getLsbD 7 = true) → b.getLsbD 7 = false → bs.length + 1 + k + 1 ≤ s.params.MAXB →
    ∃ v : BitVec s.params.W,
      execAll (bufferInstrs (bs ++ [b])) s = .next { s with
        regs := Regs.emitted .ok v (BitVec.ofNat s.params.CW (bs.length + 1)) } ∧
      execAll (bufferInstrs (bs ++ [b ||| 0x80#8] ++ List.replicate k 0x80#8 ++ [0x00#8])) s = .next { s with
        regs := Regs.emitted .ok v (BitVec.ofNat s.params.CW (bs.length + 1 + k + 1)) }

/-- The round trip of 95_test_vectors.md L1-8: the canonical encoding (R70) of any `v < 2^W` decodes to `v`, under either
`TOPBITS`. -/
def Obligations.RoundTripOfEveryValue : Prop :=
  ∀ (s : State) (v : Nat), s.IdleReady → v < 2 ^ s.params.W →
    (enc s.params.MAXB v).length ≤ s.params.MAXB ∧
    execAll (bufferInstrs (enc s.params.MAXB v)) s = .next { s with
        regs := Regs.emitted .ok (BitVec.ofNat s.params.W v) (BitVec.ofNat s.params.CW (enc s.params.MAXB v).length) }

/-- R41 (derived by the spec): for any buffer, its bytes followed by END give, from idle, the record of the software
call's outcome. That the words after that record leave the state as it is rests on the model's choice of log 7: `exec`
answers the unchanged state while a record waits. -/
def Obligations.BufferGivesTheSoftwareOutcome : Prop :=
  ∀ (s : State) (bs : List Byte), s.IdleReady →
    execAll (bufferInstrs bs ++ [decode endOfBuffer]) s = .next { s with regs :=
      { acc := 0, cnt := 0, ov := true
        os := ((softDecode s.params 0 0 bs).record s.params).status
        oval := ((softDecode s.params 0 0 bs).record s.params).value
        ocnt := ((softDecode s.params 0 0 bs).record s.params).count } }

/-- R54 and R156 (R54 derived by the spec): for any buffer sent with one END by a host that takes every record, the
records are those of the software loop, going on after a malformed byte; up to the first outcome that is not OK they are
the software loop's own. -/
def Obligations.StreamGivesTheSoftwareRecords : Prop :=
  ∀ (s : State) (bs : List Byte), s.IdleReady →
    (∃ r : Regs s.params, r.acc = 0 ∧ r.cnt = 0 ∧ r.ov = false ∧
      serveAll (bs.map byteWord ++ [endOfBuffer]) s = .next { s with
        regs := r, taken := s.taken ++ streamRecords s.params (bs.length + 1) bs }) ∧
    ∃ more, streamRecords s.params (bs.length + 1) bs = softLoop s.params (bs.length + 1) bs ++ more ∧
      ((∀ x ∈ softLoop s.params (bs.length + 1) bs, x.status ≠ 0b10) → more = [])

/-- R107 (derived by the spec): from idle, any `MAXB + 1` accepted words produce a record. -/
def Obligations.AttemptsAreBounded : Prop :=
  ∀ (s : State) (is : List Instr), s.IdleReady → is.length = s.params.MAXB + 1 →
    ∃ (k : Nat) (t : State), k ≤ s.params.MAXB + 1 ∧ execAll (is.take k) s = .next t ∧ t.regs.ov = true

/-- R108 (derived by the spec): over any words, the counts of the records taken and the counter of the varint in
progress grow by the number of BYTE words. -/
def Obligations.ConsumedBytesAreAccountedFor : Prop :=
  ∀ (s : State) (ws : List InputWord), s.Ready → s.regs.Inv →
    ∃ t : State, serveAll ws s = .next t ∧ t.Ready ∧
      countSum t.taken + t.regs.cnt.toNat = countSum s.taken + s.regs.cnt.toNat + byteWords ws

/-- R188 (reference timing): with an eager host a varint of `L` bytes costs `L + 1` edges, from the offer of its first
byte to the hand-over of its record. -/
def Obligations.EagerVarintTakesItsLengthPlusOneEdges : Prop :=
  ∀ (s : State) (bs : List Byte) (b : Byte) (rest : List Pins), s.IdleReady → s.offered = none →
    (∀ x ∈ bs, x.getLsbD 7 = true) → b.getLsbD 7 = false → bs.length + 1 ≤ s.params.MAXB →
    (s.params.topBits = .truncate ∨ groupSum 0 (bs ++ [b]) < 2 ^ s.params.W) →
    s.plan = eagerPlan (bs ++ [b]) ++ rest →
    ∃ x : Record s.params,
      x = { status := 0b00, value := BitVec.ofNat s.params.W (groupSum 0 (bs ++ [b])),
            count := BitVec.ofNat s.params.CW (bs.length + 1) } ∧
      runSteps (bs.length + 2) s = .next { s with
        regs := { acc := 0, cnt := 0, ov := false, os := x.status, oval := x.value, ocnt := x.count }
        taken := s.taken ++ [x]
        plan := rest }

/-! ## What cannot be learned (42_result_channel.md R133, 10_state.md R25, 70_reset_and_hazards.md R185, R186) -/

/-- R133, R48: an error record, and all that follows it, does not depend on the partial accumulator. -/
def Obligations.PartialValueIsNeverVisible : Prop :=
  ∀ (s t : State) (i : Instr) (acc : BitVec s.params.W), s.Ready → exec i s = .next t → t.regs.ov = true →
    t.regs.os ≠ 0b00 → exec i { s with regs := { s.regs with acc := acc } } = .next t

/-- R25, and 93_implementation_defined.md I4: the fields of a record already taken have no influence on any later word
or record. That a list of operations running past an emitted record still answers a next state rests on the model's
choice of log 7: `exec` answers the unchanged state while `ov = 1`. -/
def Obligations.StaleRecordFieldsAreNeverUsed : Prop :=
  ∀ (s : State) (r r' : Regs s.params) (is : List Instr), s.resetApplied = true → r.SameButStale r' →
    ∃ q q' : Regs s.params,
      execAll is { s with regs := r } = .next { s with regs := q } ∧
      execAll is { s with regs := r' } = .next { s with regs := q' } ∧ q.SameButStale q'

/-- R185 and R186: with `in_valid = 0` the word ports are ignored, and with no record waiting `out_ready` is. -/
def Obligations.IgnoredPinsHaveNoEffect : Prop :=
  ∀ (s : State) (pins : Pins) (rest : List Pins),
    (∀ (k : Option Bool) (d : Option Byte), pins.inValid = some false →
      step { s with plan := { pins with inKind := k, inData := d } :: rest } = step { s with plan := pins :: rest }) ∧
    (∀ x y : Bool, s.regs.ov = false → pins.outReady = some x →
      step { s with plan := { pins with outReady := some y } :: rest } = step { s with plan := pins :: rest })
end

