-- ==== Sys2Proof/Laws/Decode.lean ====
section
/-! SUPPORT. The fields of an input word (30_encoding.md R61, R62) and the pins a host drives for one. -/

namespace Sys2Proof.Laws
open Sys2Proof.Machine

@[simp] theorem kindBit_wordOf (k : Bool) (d : Byte) : kindBit (wordOf k d) = k := by
  revert k d
  decide +kernel

@[simp] theorem dataBits_wordOf (k : Bool) (d : Byte) : dataBits (wordOf k d) = d := by
  revert k d
  decide +kernel

@[simp] theorem contBit_wordOf (k : Bool) (d : Byte) : contBit (wordOf k d) = d.getLsbD 7 := by
  revert k d
  decide +kernel

/-- An input word is the word of its two ports (R61). -/
@[simp] theorem wordOf_fields (w : InputWord) : wordOf (kindBit w) (dataBits w) = w := by
  revert w
  decide +kernel

/-- A buffer byte is sent as BYTE_CONT or BYTE_LAST by its bit 7 (R62). -/
theorem decode_byteWord (b : Byte) :
    decode (byteWord b) = if b.getLsbD 7 then .byteCont b else .byteLast b := by
  simp [decode, byteWord]

/-- The payload is the byte mod 128, `b & 0x7F` (R63). -/
theorem payload_toNat (b : Byte) : (payload b).toNat = b.toNat % 128 := by
  simp [payload, BitVec.extractLsb'_toNat]

/-- Bit 7 of a byte says whether it is 128 or more (R10). -/
theorem getLsbD_seven (b : Byte) : b.getLsbD 7 = decide (128 ≤ b.toNat) := by
  have := b.isLt
  rw [BitVec.getLsbD, Nat.testBit_eq_decide_div_mod_eq]
  by_cases h : 128 ≤ b.toNat
  · simp [h]; omega
  · simp [h]; omega

@[simp] theorem sending_offer (w : InputWord) : (Pins.sending w).offer = some w := by
  simp [Pins.offer, Pins.sending, Pins.word]

@[simp] theorem receiving_offer : Pins.receiving.offer = none := rfl

end Sys2Proof.Laws
end

