-- ==== Sys2Proof/Laws/Params.lean ====
section
/-! SUPPORT. Arithmetic of the derived constants `MAXB` and `CW` (00_scope.md R6, R8). -/

namespace Sys2Proof.Laws

/-- `7*n >= W` holds exactly when `n >= MAXB` (R6). -/
theorem W_le_seven_mul_iff (p : Params) (n : Nat) : p.W ≤ 7 * n ↔ p.MAXB ≤ n := by
  unfold Params.MAXB
  omega

/-- A count up to `MAXB + 1` fits `CW` bits (R8). -/
theorem MAXB_succ_lt_two_pow_CW (p : Params) : p.MAXB + 1 < 2 ^ p.CW := Nat.lt_log2_self

/-- `CW` is no wider than `MAXB + 1` needs (R8). -/
theorem two_pow_CW_le (p : Params) : 2 ^ (p.CW - 1) ≤ p.MAXB + 1 := by
  rw [Params.CW, Nat.add_sub_cancel]
  exact Nat.log2_self_le (Nat.succ_ne_zero _)

/-- A varint may always have five bytes, since `W >= 32` (R5, R6). -/
theorem five_le_MAXB (p : Params) : 5 ≤ p.MAXB := by
  have := p.wide
  unfold Params.MAXB
  omega

/-- A small count is the number it is written from (R8). -/
theorem toNat_ofNat_CW (p : Params) {n : Nat} (h : n ≤ p.MAXB + 1) : (BitVec.ofNat p.CW n).toNat = n := by
  have := MAXB_succ_lt_two_pow_CW p
  rw [BitVec.toNat_ofNat, Nat.mod_eq_of_lt (by omega)]

/-- `cnt + 1` is exact for `cnt <= MAXB` (R22). -/
theorem toNat_succ_CW (p : Params) (c : BitVec p.CW) (h : c.toNat ≤ p.MAXB) : (c + 1).toNat = c.toNat + 1 := by
  have h2 := MAXB_succ_lt_two_pow_CW p
  have h3 : 1 < 2 ^ p.CW := by omega
  rw [BitVec.toNat_add]
  have : (1 : BitVec p.CW).toNat = 1 := by
    rw [show (1 : BitVec p.CW) = BitVec.ofNat p.CW 1 from rfl, BitVec.toNat_ofNat, Nat.mod_eq_of_lt h3]
  rw [this, Nat.mod_eq_of_lt (by omega)]

end Sys2Proof.Laws
end

