-- ==== Sys2Proof/Laws/Datapath.lean ====
section
/-! SUPPORT. The datapath's conditions and sum as arithmetic on natural numbers (40_datapath.md R81-R88). -/

namespace Sys2Proof.Laws
open Sys2Proof.Machine

variable (p : Params) (cnt : BitVec p.CW) (b : Byte)

/-- `shift_ovf = (cnt >= MAXB)` (R82). -/
theorem shiftOvf_iff : shiftOvf p cnt = true ↔ p.MAXB ≤ cnt.toNat := by
  simp [shiftOvf, shiftAmount, W_le_seven_mul_iff]

/-- The shifted payload as a number (R83). -/
theorem shiftedPayload_toNat :
    (shiftedPayload p cnt b).toNat = (b.toNat % 128 * 2 ^ (7 * cnt.toNat)) % 2 ^ p.W := by
  have hw : b.toNat % 128 < 2 ^ p.W := by
    have h1 : 2 ^ 7 ≤ 2 ^ p.W := Nat.pow_le_pow_right (by omega) (by have := p.wide; omega)
    omega
  simp only [shiftedPayload, shiftAmount, BitVec.toNat_shiftLeft, BitVec.toNat_setWidth, payload_toNat,
    BitVec.truncate_eq_setWidth, Nat.shiftLeft_eq]
  rw [Nat.mod_eq_of_lt hw]

/-- Payload bits are lost exactly when the unreduced shifted payload does not fit `W` bits (R84). -/
theorem lostBits_ne_zero_iff (h : cnt.toNat < p.MAXB) :
    lostBits p cnt b ≠ 0 ↔ 2 ^ p.W ≤ b.toNat % 128 * 2 ^ (7 * cnt.toNat) := by
  have hs : 7 * cnt.toNat < p.W := by
    have := (W_le_seven_mul_iff p cnt.toNat).mpr
    unfold Params.MAXB at h
    omega
  have hovf : shiftOvf p cnt = false := by
    simp [shiftOvf, shiftAmount]
    omega
  have hpow : 2 ^ p.W = 2 ^ (p.W - 7 * cnt.toNat) * 2 ^ (7 * cnt.toNat) := by
    rw [← Nat.pow_add]
    congr 1
    omega
  rw [lostBits, hovf, hpow, Nat.mul_le_mul_right_iff (Nat.two_pow_pos _), Ne,
    ← BitVec.toNat_inj]
  simp only [Bool.false_eq_true, if_false, BitVec.toNat_ushiftRight, payload_toNat, shiftAmount,
    Nat.shiftRight_eq_div_pow]
  rw [show (0 : BitVec 7).toNat = 0 from rfl, Nat.div_eq_zero_iff]
  have := Nat.two_pow_pos (p.W - 7 * cnt.toNat)
  omega

/-- The datapath fails on a shift of `W` or more, and under REJECT on a payload that does not fit (R82, R85, R88). -/
theorem failBit_iff :
    failBit p cnt b = true ↔
      p.MAXB ≤ cnt.toNat ∨ (p.topBits = .reject ∧ 2 ^ p.W ≤ b.toNat % 128 * 2 ^ (7 * cnt.toNat)) := by
  by_cases h : p.MAXB ≤ cnt.toNat
  · simp [failBit, (shiftOvf_iff p cnt).mpr h, h]
  · have hovf : shiftOvf p cnt = false := by
      rw [← Bool.not_eq_true, shiftOvf_iff]
      exact h
    rw [← lostBits_ne_zero_iff p cnt b (by omega)]
    simp [failBit, topFail, hovf, h]

/-- With `fail = 0`, `acc_next` is the sum reduced `mod 2^W` (R86). -/
theorem SA_accNext_toNat (acc : BitVec p.W) (h : failBit p cnt b = false) :
    (SA acc cnt b).accNext.toNat = (acc.toNat + b.toNat % 128 * 2 ^ (7 * cnt.toNat)) % 2 ^ p.W := by
  simp [SA, h, BitVec.toNat_add, shiftedPayload_toNat]

end Sys2Proof.Laws
end

