-- ==== Sys2Proof/Laws/State.lean ====
section
/-! SUPPORT. What each operation leaves in each field, by its definition, so that no later proof unfolds an update. -/

namespace Sys2Proof.Laws
open Sys2Proof.Machine

section registers
variable {p : Params} (st : Status) (v : BitVec p.W) (c : BitVec p.CW) (r : Regs p)

@[simp] theorem emit_acc : (emit st v c r).acc = r.acc := rfl
@[simp] theorem emit_cnt : (emit st v c r).cnt = r.cnt := rfl
@[simp] theorem emit_ov : (emit st v c r).ov = true := rfl
@[simp] theorem emit_os : (emit st v c r).os = st.code := rfl
@[simp] theorem emit_oval : (emit st v c r).oval = v := rfl
@[simp] theorem emit_ocnt : (emit st v c r).ocnt = c := rfl

@[simp] theorem clearAttempt_acc : (clearAttempt r).acc = 0 := rfl
@[simp] theorem clearAttempt_cnt : (clearAttempt r).cnt = 0 := rfl
@[simp] theorem clearAttempt_ov : (clearAttempt r).ov = r.ov := rfl
@[simp] theorem clearAttempt_os : (clearAttempt r).os = r.os := rfl
@[simp] theorem clearAttempt_oval : (clearAttempt r).oval = r.oval := rfl
@[simp] theorem clearAttempt_ocnt : (clearAttempt r).ocnt = r.ocnt := rfl

/-- A record emitted at the end of an attempt: the registers hold it and nothing of the attempt (R130, R23). -/
theorem clearAttempt_emit : clearAttempt (emit st v c r) = Regs.emitted st v c := rfl

@[simp] theorem emitted_acc : (Regs.emitted st v c : Regs p).acc = 0 := rfl
@[simp] theorem emitted_cnt : (Regs.emitted st v c : Regs p).cnt = 0 := rfl
@[simp] theorem emitted_ov : (Regs.emitted st v c : Regs p).ov = true := rfl
@[simp] theorem emitted_os : (Regs.emitted st v c : Regs p).os = st.code := rfl
@[simp] theorem emitted_oval : (Regs.emitted st v c : Regs p).oval = v := rfl
@[simp] theorem emitted_ocnt : (Regs.emitted st v c : Regs p).ocnt = c := rfl

@[simp] theorem currentRecord_status : (currentRecord r).status = r.os := rfl
@[simp] theorem currentRecord_value : (currentRecord r).value = r.oval := rfl
@[simp] theorem currentRecord_count : (currentRecord r).count = r.ocnt := rfl

@[simp] theorem reset_acc : (Regs.reset p).acc = 0 := rfl
@[simp] theorem reset_cnt : (Regs.reset p).cnt = 0 := rfl
@[simp] theorem reset_ov : (Regs.reset p).ov = false := rfl
@[simp] theorem reset_os : (Regs.reset p).os = 0 := rfl
@[simp] theorem reset_oval : (Regs.reset p).oval = 0 := rfl
@[simp] theorem reset_ocnt : (Regs.reset p).ocnt = 0 := rfl

end registers

section states
variable (s : State) (pins : Pins) (w : InputWord)

@[simp] theorem takeRecord_params : (takeRecord s).params = s.params := rfl
@[simp] theorem takeRecord_regs : (takeRecord s).regs = { s.regs with ov := false } := rfl
@[simp] theorem takeRecord_resetApplied : (takeRecord s).resetApplied = s.resetApplied := rfl
@[simp] theorem takeRecord_plan : (takeRecord s).plan = s.plan := rfl
@[simp] theorem takeRecord_offered : (takeRecord s).offered = s.offered := rfl
@[simp] theorem takeRecord_taken : (takeRecord s).taken = s.taken ++ [currentRecord s.regs] := rfl
@[simp] theorem takeRecord_draws : (takeRecord s).draws = s.draws := rfl

@[simp] theorem resetBlock_params : (resetBlock s).params = s.params := rfl
@[simp] theorem resetBlock_regs : (resetBlock s).regs = Regs.reset s.params := rfl
@[simp] theorem resetBlock_resetApplied : (resetBlock s).resetApplied = true := rfl
@[simp] theorem resetBlock_plan : (resetBlock s).plan = s.plan := rfl
@[simp] theorem resetBlock_offered : (resetBlock s).offered = s.offered := rfl
@[simp] theorem resetBlock_taken : (resetBlock s).taken = s.taken := rfl
@[simp] theorem resetBlock_draws : (resetBlock s).draws = s.draws := rfl

@[simp] theorem redraw_params : (redraw s).params = s.params := rfl
@[simp] theorem redraw_regs : (redraw s).regs = freeRegs s.params s.draws := rfl
@[simp] theorem redraw_resetApplied : (redraw s).resetApplied = s.resetApplied := rfl
@[simp] theorem redraw_plan : (redraw s).plan = s.plan := rfl
@[simp] theorem redraw_offered : (redraw s).offered = s.offered := rfl
@[simp] theorem redraw_taken : (redraw s).taken = s.taken := rfl
@[simp] theorem redraw_draws : (redraw s).draws = s.draws + 6 := rfl

@[simp] theorem noteOffer_params : (noteOffer pins s).params = s.params := rfl
@[simp] theorem noteOffer_regs : (noteOffer pins s).regs = s.regs := rfl
@[simp] theorem noteOffer_resetApplied : (noteOffer pins s).resetApplied = s.resetApplied := rfl
@[simp] theorem noteOffer_plan : (noteOffer pins s).plan = s.plan := rfl
@[simp] theorem noteOffer_offered : (noteOffer pins s).offered = pins.offer := rfl
@[simp] theorem noteOffer_taken : (noteOffer pins s).taken = s.taken := rfl
@[simp] theorem noteOffer_draws : (noteOffer pins s).draws = s.draws := rfl

@[simp] theorem withOffer_params : (withOffer w s).params = s.params := rfl
@[simp] theorem withOffer_regs : (withOffer w s).regs = { s.regs with ov := false } := rfl
@[simp] theorem withOffer_resetApplied : (withOffer w s).resetApplied = true := rfl
@[simp] theorem withOffer_plan : (withOffer w s).plan = Pins.sending w :: s.plan := rfl
@[simp] theorem withOffer_offered : (withOffer w s).offered = none := rfl
@[simp] theorem withOffer_taken : (withOffer w s).taken = s.taken := rfl
@[simp] theorem withOffer_draws : (withOffer w s).draws = s.draws := rfl

/-- The duties look at the pins, the reset-applied flag and the standing offer only (R137). -/
@[simp] theorem dutyBroken_with_plan (rest : List Pins) :
    dutyBroken pins { s with plan := rest } = dutyBroken pins s := rfl

end states

end Sys2Proof.Laws
end

