-- ==== Sys2Proof/Laws/InputWords.lean ====
section
/-! SUPPORT. What accepting an operation does (41_input_words.md R100-R104), one lemma per case. -/

namespace Sys2Proof.Laws
open Sys2Proof.Machine

/-- The rule an operation performs on the registers (R101). -/
def ruleOf (p : Params) : Instr → Regs p → Regs p
  | .byteCont b => byteContRule b
  | .byteLast b => byteLastRule b
  | .endWord _ => endRule

/-- Every operation is accepted in one and the same way, and differs in its rule on the registers (R100, R101). -/
theorem exec_eq_accept (i : Instr) (s : State) : exec i s = accept s (ruleOf s.params i) := by
  cases i <;> rfl

/-- Acceptance, where it is enabled (R100). -/
theorem accept_ready {s : State} (h : s.Ready) (f : Regs s.params → Regs s.params) :
    accept s f = .next { s with regs := f s.regs } := by
  simp [accept, h.1, h.2]

/-- Every operation completes where a word can be accepted (R100, R101). -/
theorem exec_ready {s : State} (h : s.Ready) (i : Instr) :
    exec i s = .next { s with regs := ruleOf s.params i s.regs } := by
  rw [exec_eq_accept, accept_ready h]

/-- Everything acceptance can do when it answers a next state: the record waits and nothing happens, or the rule's
writes happen and nothing else (R100, R135). -/
theorem accept_cases {s t : State} {f : Regs s.params → Regs s.params} (h : accept s f = .next t) :
    s.resetApplied = true ∧
      ((s.regs.ov = true ∧ t = s) ∨ (s.regs.ov = false ∧ t = { s with regs := f s.regs })) := by
  unfold accept at h
  split at h
  case isFalse => cases h
  case isTrue ha =>
    refine ⟨ha, ?_⟩
    split at h
    case isTrue ho =>
      cases h
      exact .inl ⟨ho, rfl⟩
    case isFalse ho =>
      cases h
      exact .inr ⟨by simpa using ho, rfl⟩

theorem byteContRule_fail {p : Params} {b : Byte} {r : Regs p} (h : failBit p r.cnt b = true) :
    byteContRule b r = Regs.emitted .malformed 0 (r.cnt + 1) := by
  simp [byteContRule, SA, h, clearAttempt_emit, nextCount]

theorem byteContRule_ok {p : Params} {b : Byte} {r : Regs p} (h : failBit p r.cnt b = false) :
    byteContRule b r = { r with acc := r.acc + shiftedPayload p r.cnt b, cnt := r.cnt + 1 } := by
  simp [byteContRule, SA, h, nextCount]

theorem byteLastRule_fail {p : Params} {b : Byte} {r : Regs p} (h : failBit p r.cnt b = true) :
    byteLastRule b r = Regs.emitted .malformed 0 (r.cnt + 1) := by
  simp [byteLastRule, SA, h, clearAttempt_emit, nextCount]

theorem byteLastRule_ok {p : Params} {b : Byte} {r : Regs p} (h : failBit p r.cnt b = false) :
    byteLastRule b r = Regs.emitted .ok (r.acc + shiftedPayload p r.cnt b) (r.cnt + 1) := by
  simp [byteLastRule, SA, h, clearAttempt_emit, nextCount]

/-- Below `MAXB`, a payload that fits (or TRUNCATE) does not fail (R82, R85, R88). -/
theorem failBit_false_of_fits {p : Params} {cnt : BitVec p.CW} {b : Byte} (h : cnt.toNat < p.MAXB)
    (hf : p.topBits = .truncate ∨ b.toNat % 128 * 2 ^ (7 * cnt.toNat) < 2 ^ p.W) : failBit p cnt b = false := by
  rw [← Bool.not_eq_true, failBit_iff]
  rintro (hm | ⟨hr, hl⟩)
  · omega
  · rcases hf with hf | hf
    · simp [hf] at hr
    · omega

/-- A buffer byte that fails ends the attempt as MALFORMED, whatever its continuation bit (R155). -/
theorem ruleOf_byteWord_fail {p : Params} {b : Byte} {r : Regs p} (h : failBit p r.cnt b = true) :
    ruleOf p (decode (byteWord b)) r = Regs.emitted .malformed 0 (r.cnt + 1) := by
  rw [decode_byteWord]
  split
  · exact byteContRule_fail h
  · exact byteLastRule_fail h

/-- A last byte that does not fail ends the attempt with the sum (R103). -/
theorem ruleOf_byteWord_last {p : Params} {b : Byte} {r : Regs p} (h : failBit p r.cnt b = false)
    (hb : b.toNat < 128) :
    ruleOf p (decode (byteWord b)) r = Regs.emitted .ok (r.acc + shiftedPayload p r.cnt b) (r.cnt + 1) := by
  rw [decode_byteWord, if_neg (by simp only [getLsbD_seven, decide_eq_true_eq]; omega)]
  exact byteLastRule_ok h

/-- A continuation byte that does not fail goes on (R102, R106). -/
theorem ruleOf_byteWord_cont {p : Params} {b : Byte} {r : Regs p} (h : failBit p r.cnt b = false)
    (hb : 128 ≤ b.toNat) :
    ruleOf p (decode (byteWord b)) r =
      { r with acc := r.acc + shiftedPayload p r.cnt b, cnt := r.cnt + 1 } := by
  rw [decode_byteWord, if_pos (by simpa only [getLsbD_seven, decide_eq_true_eq] using hb)]
  exact byteContRule_ok h

theorem endRule_eq {p : Params} (r : Regs p) : endRule r = Regs.emitted .insufficient 0 r.cnt := rfl

end Sys2Proof.Laws
end

