-- ==== Sys2Proof/Laws/Edge.lean ====
section
/-! SUPPORT. Everything one clock edge can do (42_result_channel.md R138), said once. -/

namespace Sys2Proof.Laws
open Sys2Proof.Machine

/-- An edge with `rst = 1` is a reset, whatever else the host drives (R180, R181). -/
theorem clockEdge_reset {pins : Pins} {s : State} (hd : dutyBroken pins s = none) (hr : pins.rst = some true) :
    clockEdge pins s = .next (noteOffer pins (resetBlock s)) := by
  simp [clockEdge, hd, hr]

/-- An edge before the first reset that is no reset (R33, R138). -/
theorem clockEdge_before_reset {pins : Pins} {s : State} (hd : dutyBroken pins s = none)
    (hr : pins.rst ≠ some true) (ha : s.resetApplied = false) :
    clockEdge pins s = .next (noteOffer pins (preResetEdge pins s)) := by
  simp only [clockEdge, hd, hr, ha, if_true, if_false]

/-- A host that breaks a duty has no move (R137). -/
theorem clockEdge_refused {pins : Pins} {s : State} {r : Refusal} (hd : dutyBroken pins s = some r) :
    clockEdge pins s = .refused r := by
  simp only [clockEdge, hd]

/-- An edge at which the duties are kept and `rst = 0`, after a first reset: an offered word meets a free block and is
accepted, or a waiting record meets a ready host and is taken, or nothing happens (R100, R131, R105). -/
theorem clockEdge_running {pins : Pins} {s : State} (hd : dutyBroken pins s = none) (hr : pins.rst ≠ some true)
    (ha : s.resetApplied = true) :
    clockEdge pins s =
      match acceptedWord pins s with
      | some w => exec (decode w) { s with offered := none }
      | none => if handsOver pins s then .next (noteOffer pins (takeRecord s)) else .next (noteOffer pins s) := by
  cases hw : acceptedWord pins s <;> simp [clockEdge, hd, hr, ha, hw]

/-- Inversion of an edge that answers a next state: reset, an edge before the first reset, an accepted word, a hand-over,
or a stutter. -/
theorem clockEdge_cases {pins : Pins} {s t : State} (h : clockEdge pins s = .next t) :
    dutyBroken pins s = none ∧
      ((pins.rst = some true ∧ t = noteOffer pins (resetBlock s)) ∨
       (pins.rst ≠ some true ∧ s.resetApplied = false ∧ t = noteOffer pins (preResetEdge pins s)) ∨
       (pins.rst ≠ some true ∧ s.resetApplied = true ∧ s.regs.ov = false ∧
          ∃ w, pins.offer = some w ∧ exec (decode w) { s with offered := none } = .next t) ∨
       (pins.rst ≠ some true ∧ s.resetApplied = true ∧ s.regs.ov = true ∧ pins.outReady = some true ∧
          t = noteOffer pins (takeRecord s)) ∨
       (pins.rst ≠ some true ∧ s.resetApplied = true ∧ acceptedWord pins s = none ∧ handsOver pins s = false ∧
          t = noteOffer pins s)) := by
  cases hd : dutyBroken pins s with
  | some r => simp [clockEdge, hd] at h
  | none =>
    refine ⟨rfl, ?_⟩
    by_cases hr : pins.rst = some true
    · simp only [clockEdge, hd, hr, if_true] at h
      cases h
      exact .inl ⟨hr, rfl⟩
    by_cases ha : s.resetApplied = true
    case neg =>
      simp only [Bool.not_eq_true] at ha
      simp only [clockEdge, hd, hr, ha, if_true, if_false] at h
      cases h
      exact .inr (.inl ⟨hr, ha, rfl⟩)
    rw [clockEdge_running hd hr ha] at h
    cases hw : acceptedWord pins s with
    | some w =>
      simp only [hw] at h
      cases ho : s.regs.ov with
      | true => simp [acceptedWord, inReady, ho] at hw
      | false =>
        have hoff : pins.offer = some w := by simpa [acceptedWord, inReady, ho] using hw
        exact .inr (.inr (.inl ⟨hr, ha, rfl, w, hoff, h⟩))
    | none =>
      simp only [hw] at h
      cases hh : handsOver pins s with
      | true =>
        simp only [hh, if_true] at h
        cases h
        simp only [handsOver, outValid, Bool.not_false, Bool.and_true, Bool.and_eq_true, decide_eq_true_eq] at hh
        exact .inr (.inr (.inr (.inl ⟨hr, ha, hh.1, hh.2, rfl⟩)))
      | false =>
        simp only [hh] at h
        cases h
        exact .inr (.inr (.inr (.inr ⟨hr, ha, rfl, rfl, rfl⟩)))

/-- A step is the edge of the host's next pins, or nothing when the host plans none (R138). -/
theorem step_nil {s : State} (h : s.plan = []) : step s = .next s := by simp [step, nextEdge, h]

theorem step_cons {s : State} {pins : Pins} {rest : List Pins} (h : s.plan = pins :: rest) :
    step s = clockEdge pins { s with plan := rest } := by simp [step, nextEdge, h]

/-- A host that keeps its duties after a first reset breaks none (R137). -/
theorem dutyBroken_of_kept {s : State} {pins : Pins} (h : s.DutiesKept pins) : dutyBroken pins s = none := by
  obtain ⟨ha, hc, hw, ho⟩ := h
  have h1 : ¬ (pins.inValid = some true ∧ pins.word = none) := fun ⟨a, b⟩ => hw a b
  have h2 : ¬ (s.offered.isSome = true ∧ pins.offer ≠ s.offered) := by
    rintro ⟨a, b⟩
    rcases ho with ho | ho
    · simp [ho] at a
    · exact b ho
  simp [dutyBroken, ha, hc, h1, h2]

/-- A run of `k + 1` steps whose first step answers `t` is the run of `k` steps from `t`. -/
theorem runSteps_succ {s t : State} (k : Nat) (h : step s = .next t) : runSteps (k + 1) s = runSteps k t := by
  rw [runSteps, h]

/-- A run of one step is the step. -/
@[simp] theorem runSteps_one (s : State) : runSteps 1 s = step s := by
  rw [runSteps]
  cases step s <;> rfl

end Sys2Proof.Laws
end

