-- ==== Sys2Proof/Laws/PerInstr.lean ====
section
/-! SUPPORT. The family `TableRow`: an instruction's word meets the match and mask of its row of
spec/opcode_table.json (30_encoding.md R62). -/

namespace Sys2Proof.Laws.TableRow

/-- The row's mask. -/
def mask : Instr → InputWord
  | .byteCont _ => 0x180#9
  | .byteLast _ => 0x180#9
  | .endWord _ => 0x100#9

/-- The row's match value. -/
def fixedBits : Instr → InputWord
  | .byteCont _ => 0x080#9
  | .byteLast _ => 0x000#9
  | .endWord _ => 0x100#9

/-- The encoded word holds the row's fixed bits. -/
def Statement (i : Instr) : Prop := encode i &&& mask i = fixedBits i

theorem byteCont (b : Byte) : Statement (.byteCont b) := by
  have h : ∀ b : Byte, encode (.byteCont b) &&& 0x180#9 = 0x080#9 := by decide +kernel
  exact h b

theorem byteLast (b : Byte) : Statement (.byteLast b) := by
  have h : ∀ b : Byte, encode (.byteLast b) &&& 0x180#9 = 0x000#9 := by decide +kernel
  exact h b

theorem endWord (low : Byte) : Statement (.endWord low) := by
  have h : ∀ low : Byte, encode (.endWord low) &&& 0x100#9 = 0x100#9 := by decide +kernel
  exact h low

end Sys2Proof.Laws.TableRow
end

