-- ==== Sys2Proof/Tests/Slice0.lean ====
section
/-! SUPPORT. Small tests against the spec's own tables and examples (40_datapath.md R90, 41_input_words.md,
95_test_vectors.md), a well-formedness smoke test, and for every statement with hypotheses a witness that meets them. -/

namespace Sys2Proof.Tests
open Sys2Proof.Machine

/-! ## Helpers -/

/-- The reference instance, and the other instances the spec's vectors name. -/
abbrev p64 : Params := Params.reference
abbrev p64r : Params := ⟨64, .reject, by decide⟩
abbrev p32 : Params := ⟨32, .truncate, by decide⟩
abbrev p32r : Params := ⟨32, .reject, by decide⟩

/-- An instance in the middle of a varint. -/
abbrev midway (p : Params) (acc cnt : Nat) : State :=
  { State.resetOf p with regs := { Regs.reset p with acc := BitVec.ofNat p.W acc, cnt := BitVec.ofNat p.CW cnt } }

/-- An idle instance with the record `(OK, 5, 1)` waiting (95_test_vectors.md V-C1). -/
abbrev waiting (p : Params) : State := { State.resetOf p with regs := Regs.emitted .ok 5 1 }

/-- `(acc, cnt, ov, os, oval, ocnt)` of a next state. -/
abbrev registersOf : Host.Outcome State Fault Refusal → Option (Nat × Nat × Bool × Nat × Nat × Nat)
  | .next t => some (t.regs.acc.toNat, t.regs.cnt.toNat, t.regs.ov, t.regs.os.toNat, t.regs.oval.toNat, t.regs.ocnt.toNat)
  | .fault _ => none
  | .refused _ => none

/-- Why a step is refused. -/
abbrev refusalOf : Host.Outcome State Fault Refusal → Option Refusal
  | .refused r => some r
  | .next _ => none
  | .fault _ => none

/-- `(fail, acc_next, last)` of the datapath, `acc_next` only where it is specified (R88). -/
abbrev saOf {p : Params} (o : SAOut p) : Bool × Option Nat × Bool :=
  (o.fail, if o.fail then none else some o.accNext.toNat, o.last)

/-! ## Well-formedness smoke test (R102, R103) -/

theorem test_byteCont_needs_bit_7_set : Instr.wellFormed (.byteCont 0x0C) = false := by decide
theorem test_byteLast_needs_bit_7_clear : Instr.wellFormed (.byteLast 0x8C) = false := by decide
theorem test_wellFormed_accepts : (Instr.byteCont 0x8C).wellFormed ∧ (Instr.byteLast 0x0C).wellFormed ∧
    (Instr.endWord 0xFF).wellFormed := by decide

/-! ## Decoding, words written out from the table's encodings -/

theorem test_decode_byteCont : decode 0b010000100#9 = .byteCont 0x84 := by decide
theorem test_decode_byteLast : decode 0b000000010#9 = .byteLast 0x02 := by decide
theorem test_decode_end : decode 0b111111111#9 = .endWord 0xFF := by decide
theorem test_encode_byteCont : encode (.byteCont 0xAC) = 0x0AC#9 := by decide
theorem test_encode_byteLast : encode (.byteLast 0x0B) = 0x00B#9 := by decide
theorem test_encode_end : encode (.endWord 0x00) = 0x100#9 := by decide
theorem test_decodeTableWord : decodeTableWord 16 0x080 = some (.byteCont 0x80) ∧
    decodeTableWord 16 0x100 = some (.endWord 0) ∧ decodeTableWord 16 0x200 = none := by decide

/-! ## Derived constants (R6, R8) -/

theorem test_constants_64 : p64.MAXB = 10 ∧ p64.CW = 4 := by decide
theorem test_constants_32 : p32.MAXB = 5 ∧ p32.CW = 3 := by decide

/-! ## The datapath, the rows of R90 -/

theorem test_SA_rows_1_to_3 : saOf (SA (p := p64) 0 0 0x8C) = (false, some 0x0C, false) ∧
    saOf (SA (p := p64) 0x0C 1 0x02) = (false, some 268, true) ∧
    saOf (SA (p := p64) 0 0 0x0B) = (false, some 11, true) := by decide +kernel
theorem test_SA_rows_4_to_7 :
    saOf (SA (p := p64) 0x7FFFFFFFFFFFFFFF 9 0x01) = (false, some 0xFFFFFFFFFFFFFFFF, true) ∧
    saOf (SA (p := p64) 0x7FFFFFFFFFFFFFFF 9 0x7F) = (false, some 0xFFFFFFFFFFFFFFFF, true) ∧
    saOf (SA (p := p64) 0 9 0x02) = (false, some 0, true) ∧
    saOf (SA (p := p64) 0 10 0x00) = (true, none, true) := by decide +kernel
theorem test_SA_reject_rows_5_and_6 :
    saOf (SA (p := p64r) 0x7FFFFFFFFFFFFFFF 9 0x7F) = (true, none, true) ∧
    saOf (SA (p := p64r) 0 9 0x02) = (true, none, true) ∧
    lostBits p64r 9 0x7F = 0x3F ∧ lostBits p64r 9 0x02 = 0x01 := by decide +kernel

/-! ## The three operations -/

/-- V-OK7: after `0xE5`, `0x8E` gives `acc = 0x765`, `cnt = 2`. -/
theorem test_byteCont_accumulates :
    registersOf (exec (.byteCont 0x8E) (midway p64 0x65 1)) = some (0x765, 2, false, 0, 0, 0) := by decide +kernel
/-- V-M2: the eleventh byte fails. -/
theorem test_byteCont_fails_at_maxb :
    registersOf (exec (.byteCont 0x80) (midway p64 0 10)) = some (0, 0, true, 2, 0, 11) := by decide +kernel
/-- L1-2 as corrected by C2: `[0x8C, 0x02]` is 268. -/
theorem test_byteLast_emits_268 :
    registersOf (exec (.byteLast 0x02) (midway p64 0x0C 1)) = some (0, 0, true, 0, 268, 2) := by decide +kernel
/-- V-T5 with `W = 32`, under TRUNCATE and (below) under REJECT. -/
theorem test_byteLast_top_bits_truncate :
    registersOf (exec (.byteLast 0x10) (midway p32 0 4)) = some (0, 0, true, 0, 0, 5) := by decide +kernel
theorem test_byteLast_top_bits_reject :
    registersOf (exec (.byteLast 0x10) (midway p32r 0 4)) = some (0, 0, true, 2, 0, 5) := by decide +kernel
/-- V-E3: END at `cnt = MAXB` is INSUFFICIENT. -/
theorem test_end_at_maxb :
    registersOf (exec (.endWord 0) (midway p64 0x7F 10)) = some (0, 0, true, 1, 0, 10) := by decide +kernel
/-- V-E5: END with low bits set, while idle. -/
theorem test_end_idle :
    registersOf (exec (.endWord 0xFF) State.reset) = some (0, 0, true, 1, 0, 0) := by decide +kernel

/-! ## The clock edge -/

/-- The host's word comes to run from reset. -/
theorem test_step_runs_fetch_word :
    registersOf (step (State.reset.withFetchWord 16 0x08C)) = some (0x0C, 1, false, 0, 0, 0) := by decide +kernel
/-- V-C1: with a record waiting and `out_ready = 0`, an offered word is not accepted. -/
theorem test_backpressure :
    registersOf (step { waiting p64 with plan := [{ Pins.sending (byteWord 0x06) with outReady := some false }] }) =
      some (0, 0, true, 0, 5, 1) := by decide +kernel
/-- V-C1: when the host takes the record, the word offered at that edge still waits. -/
theorem test_take :
    registersOf (step { waiting p64 with plan := [Pins.sending (byteWord 0x06)] }) =
      some (0, 0, false, 0, 5, 1) := by decide +kernel
/-- V-C2, V-C3: reset discards the varint in progress. -/
theorem test_reset_discards :
    registersOf (step { midway p64 1 1 with plan := [Pins.resetting] }) = some (0, 0, false, 0, 0, 0) := by decide +kernel
/-- R185: an offered word is withdrawn. -/
theorem test_withdrawn_offer_is_refused :
    refusalOf (step { waiting p64 with plan := [Pins.receiving], offered := some 0x006#9 }) = some .unstableOffer := by
  decide +kernel
/-- R137 duty 2: `out_ready` unknown. -/
theorem test_unknown_ready_is_refused :
    refusalOf (step { State.reset with plan := [{ Pins.receiving with outReady := none }] }) = some .unknownInput := by
  decide +kernel
/-- R137 duty 3: a word offered before the first reset. -/
theorem test_use_before_reset_is_refused :
    refusalOf (step { State.powerOn p64 0 with plan := [Pins.sending 0x005#9] }) = some .useBeforeReset := by
  decide +kernel
/-- From reset with nothing planned, a step is a stutter (log 3). -/
theorem test_reset_stutters : step State.reset = .next State.reset := rfl

/-! ## The terms of the claims -/

/-- R70: `enc(300) = [0xAC, 0x02]`. -/
theorem test_enc_300 : enc 10 300 = [0xAC, 0x02] := by decide
/-- L1-4: the software decode of `[0x84, 0x02, 0x04, 0x05, 0x06]`. -/
theorem test_softDecode_260 :
    softDecode p64 0 0 [0x84, 0x02, 0x04, 0x05, 0x06] = .ok 260 2 [0x04, 0x05, 0x06] := by decide +kernel
/-- R44: `[0x84, 0x02]` is `4 + (2 << 7)`. -/
theorem test_groupSum_260 : groupSum 0 [0x84, 0x02] = 260 := by decide

/-! ## Witnesses of the statements' hypotheses -/

theorem reset_ready (p : Params) : (State.resetOf p).Ready := ⟨rfl, rfl⟩
theorem reset_idleReady (p : Params) : (State.resetOf p).IdleReady := ⟨⟨rfl, rfl⟩, rfl, rfl⟩
theorem midway_ready (p : Params) (a c : Nat) : (midway p a c).Ready := ⟨rfl, rfl⟩
theorem reset_inv (p : Params) : (Regs.reset p).Inv :=
  ⟨Nat.zero_le _, fun _ => rfl, Nat.two_pow_pos _, fun h => absurd h (show ¬ (0 : BitVec 2) = 3 by decide),
    fun h => nomatch h⟩

theorem witness_DecodeAndEncodeAgree : (Instr.byteCont 0x8C).wellFormed = true ∧ (Instr.byteLast 0x7F).wellFormed = true := by
  decide
theorem witness_EndWordsActAlike : (0x100#9).getLsbD 8 = true ∧ (0x1FF#9).getLsbD 8 = true := by decide
theorem witness_ShiftCheckFailsEveryByte : shiftOvf p64 10 = true ∧ shiftOvf p64 9 = false ∧ shiftOvf p32 5 = true ∧
    shiftOvf p32 4 = false := by decide +kernel
theorem witness_LostPayloadBits_clauses :
    (shiftOvf p64 8 = false ∧ 7 * (8 : BitVec p64.CW).toNat + 7 ≤ p64.W) ∧
    (shiftOvf p64 9 = false ∧ lostBits p64 9 0x7F ≠ 0 ∧ p64.W = 64 ∧ (9 : BitVec p64.CW).toNat = 9) ∧
    (shiftOvf p32 4 = false ∧ lostBits p32 4 0x10 ≠ 0 ∧ p32.W = 32 ∧ (4 : BitVec p32.CW).toNat = 4) ∧
    p64.topBits = .truncate := by decide +kernel
theorem witness_TopBitsCheckAndLastByteTest : topFail p64r 9 0x02 = true ∧ p64.topBits = .truncate := by decide +kernel
theorem witness_ShiftedPayloadIsTheShiftedNumber : shiftOvf p64 9 = false ∧ 62 < 7 * (9 : BitVec p64.CW).toNat ∧
    shiftOvf p64 (midway p64 0 10).regs.cnt = true := by decide +kernel
theorem witness_AdditionNeverCarries :
    (0x7FFFFFFFFFFFFFFF : BitVec p64.W).toNat < 2 ^ (7 * (9 : BitVec p64.CW).toNat) ∧
    (SA (p := p64) 0x7FFFFFFFFFFFFFFF 9 0x7F).fail = false := by decide +kernel
theorem witness_ByteContWritesItsRegisters : State.reset.Ready ∧ (midway p64 0 10).Ready :=
  ⟨reset_ready _, midway_ready _ _ _⟩
theorem witness_ByteLastWritesItsRegisters : State.reset.Ready ∧ (midway p32r 0 4).Ready :=
  ⟨reset_ready _, midway_ready _ _ _⟩
theorem witness_EndWritesItsRegisters : State.reset.Ready ∧ (midway p64 0 10).Ready :=
  ⟨reset_ready _, midway_ready _ _ _⟩
theorem witness_ByteContAccumulates :
    ((midway p64 0 9).Ready ∧ (midway p64 0 9).regs.cnt.toNat < p64.MAXB ∧ p64.topBits = .truncate) ∧
    ((midway p64r 0 9).Ready ∧ (midway p64r 0 9).regs.cnt.toNat < p64r.MAXB ∧
      (0x81#8).toNat % 128 * 2 ^ (7 * (midway p64r 0 9).regs.cnt.toNat) < 2 ^ p64r.W) :=
  ⟨⟨midway_ready _ _ _, by decide +kernel, rfl⟩, midway_ready _ _ _, by decide +kernel, by decide +kernel⟩
theorem witness_ByteLastEmitsTheSum :
    ((midway p64 0 9).Ready ∧ (midway p64 0 9).regs.cnt.toNat < p64.MAXB ∧ p64.topBits = .truncate) ∧
    ((midway p32r 0 4).Ready ∧ (midway p32r 0 4).regs.cnt.toNat < p32r.MAXB ∧
      (0x0F#8).toNat % 128 * 2 ^ (7 * (midway p32r 0 4).regs.cnt.toNat) < 2 ^ p32r.W) :=
  ⟨⟨midway_ready _ _ _, by decide +kernel, rfl⟩, midway_ready _ _ _, by decide +kernel, by decide +kernel⟩
theorem witness_ByteAtMaxbIsMalformed :
    ((midway p64 0 10).Ready ∧ (midway p64 0 10).regs.cnt.toNat = p64.MAXB ∧ p64.W = 64) ∧
    ((midway p32 0 5).Ready ∧ (midway p32 0 5).regs.cnt.toNat = p32.MAXB ∧ p32.W = 32) :=
  ⟨⟨midway_ready _ _ _, by decide +kernel, rfl⟩, midway_ready _ _ _, by decide +kernel, rfl⟩
theorem witness_LostTopBitsAreMalformedUnderReject :
    ((midway p64r 0 9).Ready ∧ (midway p64r 0 9).regs.cnt.toNat + 1 = p64r.MAXB ∧ p64r.topBits = .reject ∧
      lostBits p64r (midway p64r 0 9).regs.cnt 0x02 ≠ 0 ∧ p64r.W = 64) ∧
    ((midway p32 0 4).Ready ∧ (midway p32 0 4).regs.cnt.toNat + 1 = p32.MAXB ∧ p32.topBits = .truncate ∧ p32.W = 32) :=
  ⟨⟨midway_ready _ _ _, by decide +kernel, rfl, by decide +kernel, rfl⟩, midway_ready _ _ _, by decide +kernel, rfl, rfl⟩
theorem witness_InsufficientComesFromEndOnly : State.reset.Ready ∧ ∃ low, Instr.endWord 0 = .endWord low :=
  ⟨reset_ready _, 0, rfl⟩
theorem witness_ChecksAreInOrder :
    ((midway p64 0 10).Ready ∧ shiftOvf p64 (midway p64 0 10).regs.cnt = true) ∧
    ((midway p64r 0 9).Ready ∧ topFail p64r (midway p64r 0 9).regs.cnt 0x02 = true) ∧
    (State.reset.Ready ∧ shiftOvf p64 State.reset.regs.cnt = false ∧ topFail p64 State.reset.regs.cnt 0x05 = false) :=
  ⟨⟨midway_ready _ _ _, by decide +kernel⟩, ⟨midway_ready _ _ _, by decide +kernel⟩, reset_ready _, by decide +kernel,
    by decide +kernel⟩
theorem witness_EmittedRecordsAreLegalAndLeaveIdle : State.reset.Ready ∧ State.reset.regs.Inv :=
  ⟨reset_ready _, reset_inv _⟩
theorem witness_WordsChangeOnlyTheirRegisters : ∃ t, exec (.byteCont 0x8C) State.reset = .next t := ⟨_, rfl⟩
theorem witness_EmitWritesTheResultRegister :
    (waiting p64).regs.ov = true ∧ ∃ t, exec (.byteLast 0x06) (waiting p64) = .next t := ⟨rfl, _, rfl⟩
theorem witness_WordWaitsForPendingRecord : (waiting p64).resetApplied = true ∧ (waiting p64).regs.ov = true := ⟨rfl, rfl⟩
theorem witness_NoWordIsAcceptedBeforeReset : (State.powerOn p64 0).resetApplied = false := rfl

/-- A host that keeps its duties while it sends a word, and while it takes a record. -/
theorem sending_keeps (p : Params) (w : InputWord) (rest : List Pins) :
    ({ State.resetOf p with plan := rest } : State).DutiesKept (Pins.sending w) :=
  ⟨rfl, rfl, fun _ h => (nomatch (show some (wordOf (kindBit w) (dataBits w)) = none from h)), .inl rfl⟩
theorem receiving_keeps (s : State) (h : s.resetApplied = true) (ho : s.offered = none) :
    s.DutiesKept Pins.receiving := ⟨h, rfl, fun h' => (nomatch h'), .inl ho⟩
theorem idle_keeps (s : State) (h : s.resetApplied = true) (ho : s.offered = none) :
    s.DutiesKept Pins.idle := ⟨h, rfl, fun h' => (nomatch h'), .inl ho⟩

theorem witness_StepRunsTheOfferedWord :
    ({ State.reset with plan := [Pins.sending 0x08C#9] } : State).DutiesKept (Pins.sending 0x08C#9) ∧
    (Pins.sending 0x08C#9).rst = some false ∧ State.reset.regs.ov = false ∧
    (Pins.sending 0x08C#9).offer = some 0x08C#9 := ⟨sending_keeps _ _ _, rfl, rfl, by decide⟩
theorem witness_FetchWordRunsNext : (0x1FF : Nat) < 512 := by decide
theorem witness_ResetEdgeResetsEveryRegister :
    dutyBroken Pins.resetting (waiting p64) = none ∧ dutyBroken Pins.resetting (State.powerOn p64 0) = none ∧
    Pins.resetting.rst = some true := ⟨rfl, rfl, rfl⟩
theorem witness_ResetDominatesTransfers :
    dutyBroken { Pins.sending 0x005#9 with rst := some true } State.reset = none ∧
    ({ Pins.sending 0x005#9 with rst := some true } : Pins).offer = some 0x005#9 ∧
    (Pins.sending 0x005#9).rst = some false ∧ (Pins.sending 0x005#9).outReady.isSome = true ∧
    (Pins.sending 0x005#9).inValid = some true ∧ (Pins.sending 0x005#9).offer = some 0x005#9 :=
  ⟨rfl, by decide, rfl, rfl, rfl, by decide⟩
theorem witness_IdleAndReadyAfterReset :
    dutyBroken Pins.resetting (waiting p64) = none ∧
    ∃ t, step { waiting p64 with plan := [Pins.resetting] } = .next t := ⟨rfl, _, rfl⟩
theorem witness_TakeHandsTheRecordOver :
    ({ waiting p64 with plan := [Pins.receiving] } : State).DutiesKept Pins.receiving ∧
    Pins.receiving.rst = some false ∧ (waiting p64).regs.ov = true ∧ Pins.receiving.outReady = some true :=
  ⟨receiving_keeps _ rfl rfl, rfl, rfl, rfl⟩
theorem witness_NoWordIsAcceptedWhileARecordWaits :
    ({ waiting p64 with plan := [Pins.idle] } : State).DutiesKept Pins.idle ∧
    Pins.idle.rst = some false ∧ (waiting p64).regs.ov = true ∧ Pins.idle.outReady = some false :=
  ⟨idle_keeps _ rfl rfl, rfl, rfl, rfl⟩
theorem witness_OutputsDriveTheRegisters :
    (outputs false State.reset.regs).outValid = false ∧
    ∃ t, step { waiting p64 with plan := [Pins.idle] } = .next t := ⟨rfl, _, rfl⟩
theorem witness_EdgeWithoutAWordKeepsTheAttempt :
    (midway p64 1 1).DutiesKept Pins.receiving ∧ Pins.receiving.inValid = some false ∧
    ({ waiting p64 with plan := [Pins.sending 0x005#9] } : State).DutiesKept (Pins.sending 0x005#9) ∧
    (waiting p64).regs.ov = true :=
  ⟨receiving_keeps _ rfl rfl, rfl,
    ⟨rfl, rfl, fun _ h => (nomatch (show some (wordOf (kindBit 0x005#9) (dataBits 0x005#9)) = none from h)), .inl rfl⟩, rfl⟩
theorem witness_AcceptAndTakeExclude : acceptedWord (Pins.sending 0x005#9) State.reset = some 0x005#9 := by decide
theorem witness_EveryLibertyHasAMove : State.reset.plan = [] ∧ State.reset.DutiesKept Pins.idle :=
  ⟨rfl, idle_keeps _ rfl rfl⟩
theorem witness_BrokenDutiesAreRefused :
    (State.reset.resetApplied = true ∧ ({ Pins.idle with rst := none } : Pins).controlsKnown = false) ∧
    (({ Pins.idle with inValid := some true } : Pins).word = none) ∧
    (Pins.receiving.controlsKnown = true ∧ Pins.receiving.inValid ≠ some true ∧
      Pins.receiving.offer ≠ ({ State.reset with offered := some 5#9 } : State).offered) ∧
    ((State.powerOn p64 0).resetApplied = false ∧ (State.powerOn p64 0).offered = none ∧
      (Pins.sending 5#9).rst ≠ some true ∧ (Pins.sending 5#9).inValid = some true ∧ (Pins.sending 5#9).word ≠ none) :=
  ⟨⟨rfl, rfl⟩, rfl, ⟨rfl, by decide, by decide⟩, rfl, rfl, by decide, rfl, by decide⟩
theorem witness_RegistersStayUnspecifiedBeforeReset :
    (State.powerOn p64 0).resetApplied = false ∧ (State.powerOn p64 0).offered = none ∧
    Pins.idle.inValid = some false ∧ Pins.idle.rst = some false ∧ ({ Pins.idle with rst := none } : Pins).rst = none :=
  ⟨rfl, rfl, rfl, rfl, rfl⟩
theorem witness_ParametersNeverChange : ∃ t, step State.reset = .next t := ⟨_, rfl⟩
theorem witness_RecordsAreNeitherLostNorDoubled :
    (waiting p64).resetApplied = true ∧ (∃ t, step { waiting p64 with plan := [Pins.receiving] } = .next t) ∧
    ∃ t, step { State.reset with plan := [Pins.sending 5#9] } = .next t := ⟨rfl, ⟨_, rfl⟩, _, rfl⟩
theorem witness_StepKeepsTheInvariant :
    State.reset.Inv ∧ ∃ t, step { State.reset with plan := [Pins.sending 5#9] } = .next t :=
  ⟨⟨fun _ => reset_inv _, fun _ h => (nomatch h)⟩, _, rfl⟩
theorem witness_ReachableStatesMeetTheBounds :
    ∃ t, runSteps 2 { State.resetOf p64 with plan := [Pins.sending 5#9, Pins.receiving] } = .next t := ⟨_, rfl⟩
theorem witness_AccumulatorHoldsTheShiftedSum :
    State.reset.IdleReady ∧ (List.replicate 10 0xFF#8).length ≤ p64.MAXB ∧ p64.topBits = .truncate ∧
    (State.resetOf p32r).IdleReady ∧ groupSum 0 [0xFF#8, 0xFF#8, 0xFF#8, 0xFF#8, 0x8F#8] < 2 ^ p32r.W :=
  ⟨reset_idleReady _, by decide, rfl, reset_idleReady _, by decide⟩
theorem witness_VarintValueIsTheGroupSum :
    State.reset.IdleReady ∧ (List.replicate 9 0xFF#8).length + 1 ≤ p64.MAXB ∧ p64.topBits = .truncate ∧
    (State.resetOf p32r).IdleReady ∧ groupSum 0 ([0xFF#8, 0xFF#8, 0xFF#8, 0xFF#8] ++ [0x0F#8]) < 2 ^ p32r.W :=
  ⟨reset_idleReady _, by decide, rfl, reset_idleReady _, by decide⟩
/-- V-OV2: `[0x8B, 0x80, 0x00]`, and the longest overlong form of `W = 64`. -/
theorem witness_OverlongVarintsKeepTheirValue :
    State.reset.IdleReady ∧ (∀ x ∈ [0x8C#8], x.getLsbD 7 = true) ∧ (0x0B#8).getLsbD 7 = false ∧
    [0x8C#8].length + 1 + 7 + 1 ≤ p64.MAXB := ⟨reset_idleReady _, by decide, by decide, by decide⟩
theorem witness_RoundTripOfEveryValue : State.reset.IdleReady ∧ 2 ^ 64 - 1 < 2 ^ p64.W := ⟨reset_idleReady _, by decide⟩
theorem witness_BufferGivesTheSoftwareOutcome : State.reset.IdleReady ∧ (State.resetOf p32r).IdleReady :=
  ⟨reset_idleReady _, reset_idleReady _⟩
theorem witness_StreamGivesTheSoftwareRecords :
    State.reset.IdleReady ∧ ∀ x ∈ softLoop p64 2 [0x05#8], x.status ≠ 0b10 := ⟨reset_idleReady _, by decide +kernel⟩
theorem witness_AttemptsAreBounded :
    State.reset.IdleReady ∧ (List.replicate 11 (Instr.byteCont 0x80)).length = p64.MAXB + 1 :=
  ⟨reset_idleReady _, by decide⟩
theorem witness_ConsumedBytesAreAccountedFor : State.reset.Ready ∧ State.reset.regs.Inv := ⟨reset_ready _, reset_inv _⟩
theorem witness_EagerVarintTakesItsLengthPlusOneEdges :
    ({ State.reset with plan := eagerPlan ([0xAC#8] ++ [0x02#8]) ++ [] } : State).IdleReady ∧
    State.reset.offered = none ∧ (∀ x ∈ [0xAC#8], x.getLsbD 7 = true) ∧ (0x02#8).getLsbD 7 = false ∧
    [0xAC#8].length + 1 ≤ p64.MAXB ∧ p64.topBits = .truncate :=
  ⟨⟨⟨rfl, rfl⟩, rfl, rfl⟩, rfl, by decide, by decide, by decide, rfl⟩
theorem witness_PartialValueIsNeverVisible :
    (midway p64 7 1).Ready ∧ ∃ t, exec (.endWord 0) (midway p64 7 1) = .next t ∧ t.regs.ov = true ∧ t.regs.os ≠ 0b00 :=
  ⟨midway_ready _ _ _, _, rfl, rfl, by decide⟩
theorem witness_StaleRecordFieldsAreNeverUsed :
    State.reset.resetApplied = true ∧ (Regs.reset p64).SameButStale { Regs.reset p64 with oval := 7, ocnt := 1 } :=
  ⟨rfl, rfl, rfl, rfl, fun h => (nomatch h)⟩
theorem witness_IgnoredPinsHaveNoEffect :
    Pins.receiving.inValid = some false ∧ State.reset.regs.ov = false ∧ Pins.receiving.outReady = some true :=
  ⟨rfl, rfl, rfl⟩

end Sys2Proof.Tests
end

section
/-! The derived constants of 00_scope.md (R6, R8). -/

namespace Sys2Proof.Proofs

open Sys2Proof.Laws

/-- `CW` depends on `W` through `MAXB` alone (R8). -/
theorem CW_of_MAXB_eq {p : Params} {m : Nat} (h : p.MAXB = m) : p.CW = Nat.log2 (m + 1) + 1 := by
  rw [Params.CW, h]

/-- The constants R6 and R8 state for `W = 64`. -/
theorem constants_of_W_eq_64 {p : Params} (h : p.W = 64) : p.MAXB = 10 ∧ p.CW = 4 := by
  have hMAXB : p.MAXB = 10 := by rw [Params.MAXB, h]
  exact ⟨hMAXB, CW_of_MAXB_eq hMAXB⟩

/-- The constants R6 and R8 state for `W = 32`. -/
theorem constants_of_W_eq_32 {p : Params} (h : p.W = 32) : p.MAXB = 5 ∧ p.CW = 3 := by
  have hMAXB : p.MAXB = 5 := by rw [Params.MAXB, h]
  exact ⟨hMAXB, CW_of_MAXB_eq hMAXB⟩

/-- Settles O5: `MAXB` is the least `n` whose shift `7 * n` reaches `W`, `CW` the width between two powers of 2 around `MAXB + 1`,
and the two reference widths are read off from `W`. -/
theorem derivedConstantsAreExact : Obligations.DerivedConstantsAreExact := fun p =>
  ⟨W_le_seven_mul_iff p, MAXB_succ_lt_two_pow_CW p, two_pow_CW_le p, constants_of_W_eq_64, constants_of_W_eq_32⟩

end Sys2Proof.Proofs
end

section
/-! The bounds of the accumulator, the counter and an emitted record's count (10_state.md R22, R24; 42_result_channel.md
R134), as arithmetic over the datapath's failure bit. -/

namespace Sys2Proof.Proofs

open Sys2Proof.Machine Sys2Proof.Laws

variable {p : Params} {cnt : BitVec p.CW} {b : Byte}

/-- A byte is only absorbed below `MAXB` (R82, R88). -/
theorem lt_MAXB_of_failBit_false (h : failBit p cnt b = false) : cnt.toNat < p.MAXB := by
  rw [← Bool.not_eq_true, failBit_iff, not_or] at h
  exact Nat.lt_of_not_le h.1

/-- A 7-bit payload shifted by `7 * n` stays below the next shift (R24). -/
theorem payload_mul_add_le (b : Byte) (n : Nat) :
    b.toNat % 128 * 2 ^ (7 * n) + 2 ^ (7 * n) ≤ 2 ^ (7 * (n + 1)) := by
  have hb : b.toNat % 128 + 1 ≤ 2 ^ 7 := Nat.mod_lt _ (by decide)
  calc b.toNat % 128 * 2 ^ (7 * n) + 2 ^ (7 * n)
      = (b.toNat % 128 + 1) * 2 ^ (7 * n) := (Nat.succ_mul _ _).symm
    _ ≤ 2 ^ 7 * 2 ^ (7 * n) := Nat.mul_le_mul_right _ hb
    _ = 2 ^ (7 * (n + 1)) := by rw [← Nat.pow_add, Nat.mul_succ, Nat.add_comm]

/-- An absorbed byte keeps the accumulator below the next shift (R24). -/
theorem acc_add_shiftedPayload_lt {acc : BitVec p.W} (h : acc.toNat < 2 ^ (7 * cnt.toNat)) (b : Byte) :
    (acc + shiftedPayload p cnt b).toNat < 2 ^ (7 * (cnt.toNat + 1)) := by
  have hsum : (acc + shiftedPayload p cnt b).toNat ≤ acc.toNat + b.toNat % 128 * 2 ^ (7 * cnt.toNat) := by
    rw [BitVec.toNat_add, shiftedPayload_toNat, Nat.add_mod_mod]
    exact Nat.mod_le _ _
  have hstep := payload_mul_add_le b cnt.toNat
  omega

/-- A payload that does not fit `W` bits at a valid shift belongs to the byte at index `MAXB - 1`, and `W` is no multiple
of 7 (R84). -/
theorem last_index_of_payload_lost {n : Nat} (hn : n < p.MAXB) (h : 2 ^ p.W ≤ b.toNat % 128 * 2 ^ (7 * n)) :
    n + 1 = p.MAXB ∧ p.W % 7 ≠ 0 := by
  have hpow : 2 ^ p.W < 2 ^ (7 * (n + 1)) := by
    have hstep := payload_mul_add_le b n
    have hpos := Nat.two_pow_pos (7 * n)
    omega
  have hW : p.W < 7 * (n + 1) := (Nat.pow_lt_pow_iff_right (by decide)).mp hpow
  unfold Params.MAXB at hn ⊢
  omega

end Sys2Proof.Proofs
end

section
/-! The invariant of the registers (10_state.md R22, R23, R24) over the three operations, the hand-over and reset. -/

namespace Sys2Proof.Proofs

open Sys2Proof.Machine Sys2Proof.Laws

variable {p : Params}

/-- `Emit` never writes the reserved status (R67). -/
theorem statusCode_ne_reserved (st : Status) : st.code ≠ 0b11 := by cases st <;> decide

/-- An idle block meets the bounds, and the whole invariant if a waiting record is legal. -/
theorem inv_of_idle {r : Regs p} (hacc : r.acc = 0) (hcnt : r.cnt = 0) (hos : r.os ≠ 0b11)
    (hrec : r.ov = true → (currentRecord r).Legal) : r.Inv :=
  ⟨by simp [hcnt], fun _ => hacc, by simp [hacc], hos, fun hov => ⟨hcnt, hacc, hrec hov⟩⟩

theorem resetRegs_inv (p : Params) : (Regs.reset p).Inv :=
  inv_of_idle rfl rfl (show (0 : BitVec 2) ≠ 3 by decide) (nomatch ·)

theorem emitted_inv {st : Status} {v : BitVec p.W} {c : BitVec p.CW}
    (h : (currentRecord (Regs.emitted st v c)).Legal) : (Regs.emitted st v c).Inv :=
  inv_of_idle rfl rfl (statusCode_ne_reserved st) fun _ => h

/-- The hand-over only lowers `ov`, and with no record waiting the invariant asks nothing of one (R131). -/
theorem handOver_inv {r : Regs p} (h : r.Inv) : ({ r with ov := false } : Regs p).Inv := by
  obtain ⟨hcnt, hidle, hacc, hos, -⟩ := h
  exact ⟨hcnt, hidle, hacc, hos, nofun⟩

/-- The count of an OK record is the number of bytes, at least one (R134). -/
theorem ok_legal {cnt : BitVec p.CW} (h : cnt.toNat < p.MAXB) (v : BitVec p.W) :
    (currentRecord (Regs.emitted .ok v (cnt + 1))).Legal := by
  rw [Record.Legal, currentRecord_count, emitted_ocnt, toNat_succ_CW p cnt h.le]
  exact .inl ⟨rfl, Nat.le_add_left 1 _, h⟩

theorem insufficient_legal {cnt : BitVec p.CW} (h : cnt.toNat ≤ p.MAXB) :
    (currentRecord (Regs.emitted .insufficient 0 cnt)).Legal := .inr (.inl ⟨rfl, rfl, h⟩)

/-- A failing byte is the one at index `MAXB`, or under REJECT the one before it (R134, R152, R153). -/
theorem malformed_legal {cnt : BitVec p.CW} {b : Byte} (h : cnt.toNat ≤ p.MAXB) (hf : failBit p cnt b = true) :
    (currentRecord (Regs.emitted .malformed 0 (cnt + 1))).Legal := by
  refine .inr (.inr ⟨rfl, rfl, ?_⟩)
  rw [currentRecord_count, emitted_ocnt, toNat_succ_CW p cnt h]
  by_cases hmax : p.MAXB ≤ cnt.toNat
  · exact .inl (by omega)
  · obtain ⟨hreject, hlost⟩ := ((failBit_iff p cnt b).mp hf).resolve_left hmax
    obtain ⟨hlast, hW⟩ := last_index_of_payload_lost (Nat.lt_of_not_le hmax) hlost
    exact .inr ⟨hreject, hW, hlast⟩

/-- BYTE_CONT without a failure keeps the bounds: the counter moves to at most `MAXB`, the accumulator's bound with it
(R22, R24). -/
theorem absorb_inv {r : Regs p} {b : Byte} (hr : r.Inv) (hov : r.ov = false) (hf : failBit p r.cnt b = false) :
    ({ r with acc := r.acc + shiftedPayload p r.cnt b, cnt := r.cnt + 1 } : Regs p).Inv := by
  obtain ⟨hcnt, -, hacc, hos, -⟩ := hr
  have hsucc := toNat_succ_CW p r.cnt hcnt
  refine ⟨?_, fun hzero => ?_, ?_, hos, fun h => ?_⟩
  · exact hsucc ▸ lt_MAXB_of_failBit_false hf
  · exact absurd (hsucc.symm.trans (congrArg BitVec.toNat hzero)) (Nat.succ_ne_zero _)
  · exact hsucc ▸ acc_add_shiftedPayload_lt hacc b
  · exact absurd (hov.symm.trans h) nofun

@[simp] theorem ruleOf_byteCont (b : Byte) : ruleOf p (.byteCont b) = byteContRule b := rfl
@[simp] theorem ruleOf_byteLast (b : Byte) : ruleOf p (.byteLast b) = byteLastRule b := rfl
@[simp] theorem ruleOf_endWord (low : Byte) : ruleOf p (.endWord low) = endRule := rfl

/-- Every operation accepted by a free block keeps the registers' invariant. -/
theorem ruleOf_inv (i : Instr) {r : Regs p} (hr : r.Inv) (hov : r.ov = false) : (ruleOf p i r).Inv := by
  have ⟨hcnt, _⟩ := hr
  cases i with
  | byteCont b =>
    rw [ruleOf_byteCont]
    cases hf : failBit p r.cnt b with
    | true => exact byteContRule_fail hf ▸ emitted_inv (malformed_legal hcnt hf)
    | false => exact byteContRule_ok hf ▸ absorb_inv hr hov hf
  | byteLast b =>
    rw [ruleOf_byteLast]
    cases hf : failBit p r.cnt b with
    | true => exact byteLastRule_fail hf ▸ emitted_inv (malformed_legal hcnt hf)
    | false => exact byteLastRule_ok hf ▸ emitted_inv (ok_legal (lt_MAXB_of_failBit_false hf) _)
  | endWord low => exact emitted_inv (insufficient_legal hcnt)

end Sys2Proof.Proofs
end

section
/-! Steps and runs: what one step does to the state beside the host's plan and offer, and what runs keep
(42_result_channel.md R138, 10_state.md section 2). -/

namespace Sys2Proof.Proofs

open Sys2Proof.Machine Sys2Proof.Laws

/-- What one step can do to a state, up to the host's plan and offer (R138). -/
inductive StepEffect (s : State) : State → Prop
  /-- nothing happens (R105) -/
  | stutter (pl : List Pins) (o : Option InputWord) : StepEffect s { s with plan := pl, offered := o }
  /-- a reset edge (R180) -/
  | reset (pl : List Pins) (o : Option InputWord) : StepEffect s { resetBlock s with plan := pl, offered := o }
  /-- an edge before the first reset with `rst` unknown (R33) -/
  | redraw (pl : List Pins) (o : Option InputWord) (ha : s.resetApplied = false) :
      StepEffect s { redraw s with plan := pl, offered := o }
  /-- an operation is accepted (R100) -/
  | accept (pl : List Pins) (o : Option InputWord) (i : Instr) (hs : s.Ready) :
      StepEffect s { s with regs := ruleOf s.params i s.regs, plan := pl, offered := o }
  /-- the waiting record is handed over (R131) -/
  | take (pl : List Pins) (o : Option InputWord) (ha : s.resetApplied = true) (hov : s.regs.ov = true) :
      StepEffect s { takeRecord s with plan := pl, offered := o }

/-- An edge before the first reset that is no reset is a stutter or a fresh draw (R33). -/
theorem preResetEdge_eq (pins : Pins) (s : State) : preResetEdge pins s = s ∨ preResetEdge pins s = redraw s := by
  unfold preResetEdge
  split
  · exact .inl rfl
  · exact .inr rfl

/-- A step that answers a next state has one of the effects. -/
theorem stepEffect_of_step {s t : State} (h : step s = .next t) : StepEffect s t := by
  cases hp : s.plan with
  | nil =>
    rw [step_nil hp] at h
    cases h
    exact .stutter s.plan s.offered
  | cons pins rest =>
    rw [step_cons hp] at h
    obtain ⟨-, ⟨-, rfl⟩ | ⟨-, ha, rfl⟩ | ⟨-, ha, hov, w, -, hexec⟩ | ⟨-, ha, hov, -, rfl⟩ | ⟨-, -, -, -, rfl⟩⟩ :=
      clockEdge_cases h
    · exact .reset rest pins.offer
    · rcases preResetEdge_eq pins { s with plan := rest } with he | he <;> rw [he]
      · exact .stutter rest pins.offer
      · exact .redraw rest pins.offer ha
    · have hready : State.Ready { s with plan := rest, offered := none } := ⟨ha, hov⟩
      cases (exec_ready hready (decode w)).symm.trans hexec
      exact .accept rest none (decode w) ⟨ha, hov⟩
    · exact .take rest pins.offer ha hov
    · exact .stutter rest pins.offer

/-- What every step keeps, every run keeps. -/
theorem runSteps_keeps {P : State → Prop} (hstep : ∀ s t, P s → step s = .next t → P t) {k : Nat} {s t : State}
    (hs : P s) (h : runSteps k s = .next t) : P t := by
  induction k generalizing s with
  | zero =>
    cases h
    exact hs
  | succ k ih =>
    cases hst : step s with
    | next u => exact ih (hstep s u hs hst) (runSteps_succ k hst ▸ h)
    | fault r => simp [runSteps, hst] at h
    | refused r => simp [runSteps, hst] at h

/-- Settles O41, over the effects of a step: reset and hand-over keep the registers' invariant, an accepted operation does
by `ruleOf_inv`, and the record a hand-over appends is the waiting one, legal by the invariant before. -/
theorem stepKeepsTheInvariant : Obligations.StepKeepsTheInvariant := by
  rintro s t ⟨hregs, htaken⟩ h
  cases stepEffect_of_step h with
  | stutter pl o => exact ⟨hregs, htaken⟩
  | reset pl o => exact ⟨fun _ => resetRegs_inv s.params, htaken⟩
  | redraw pl o ha => exact ⟨fun h' => absurd (ha.symm.trans h') nofun, htaken⟩
  | accept pl o i hs =>
    obtain ⟨ha, hov⟩ := hs
    exact ⟨fun _ => ruleOf_inv i (hregs ha) hov, htaken⟩
  | take pl o ha hov =>
    obtain ⟨-, -, -, -, hwaiting⟩ := hregs ha
    obtain ⟨-, -, hlegal⟩ := hwaiting hov
    exact ⟨fun _ => handOver_inv (hregs ha),
      List.forall_mem_append.mpr ⟨htaken, List.forall_mem_singleton.mpr hlegal⟩⟩

/-- Settles O39, over the effects of a step: each keeps the parameters, and the reset-applied flag is kept or raised. -/
theorem parametersNeverChange : Obligations.ParametersNeverChange := by
  intro s t h
  cases stepEffect_of_step h with
  | stutter | redraw | accept | take => exact ⟨rfl, id⟩
  | reset => exact ⟨rfl, fun _ => rfl⟩

/-- The reset state of every parameter set meets the invariant. -/
theorem resetOf_inv (p : Params) : (State.resetOf p).Inv := ⟨fun _ => resetRegs_inv p, nofun⟩

/-- Settles O42: the reset registers meet the bounds, and before the first reset the invariant asks nothing of them. -/
theorem resetMeetsTheInvariant : Obligations.ResetMeetsTheInvariant :=
  ⟨resetOf_inv _, resetOf_inv, fun _ _ => ⟨nofun, nofun⟩⟩

/-- Settles O43: every step keeps the invariant together with the reset-applied flag, and the start state has both. -/
theorem reachableStatesMeetTheBounds : Obligations.ReachableStatesMeetTheBounds := by
  intro p pl k t h
  have hreach : t.resetApplied = true ∧ t.Inv :=
    runSteps_keeps (P := fun s => s.resetApplied = true ∧ s.Inv) (s := { State.resetOf p with plan := pl })
      (fun s u ⟨ha, hinv⟩ hst =>
        ⟨(parametersNeverChange s u hst).2 ha, stepKeepsTheInvariant s u hinv hst⟩)
      ⟨rfl, resetOf_inv p⟩ h
  obtain ⟨ha, hregs, -⟩ := hreach
  obtain ⟨hcnt, hidle, hacc, hos, -⟩ := hregs ha
  exact ⟨hcnt, hidle, hacc, hos⟩

/-- Settles O38: the duties are kept, so the edge is a stutter or a fresh draw, and the host's offer stays none. -/
theorem registersStayUnspecifiedBeforeReset : Obligations.RegistersStayUnspecifiedBeforeReset := by
  intro s pins rest hp ha ho hv
  have hoffer : pins.offer = s.offered := by simp [Pins.offer, hv, ho]
  have hedge (hr : pins.rst ≠ some true) :
      step s = .next (noteOffer pins (preResetEdge pins { s with plan := rest })) := by
    have hduty : dutyBroken pins { s with plan := rest } = none := by simp [dutyBroken, ha, ho, hv]
    rw [step_cons hp, clockEdge_before_reset hduty hr ha]
  constructor
  · intro hr
    rw [hedge (by simp [hr]), preResetEdge, if_pos hr, noteOffer, hoffer]
  · intro hr
    rw [hedge (by simp [hr]), preResetEdge, if_neg (by simp [hr]), noteOffer, hoffer]
    rfl

end Sys2Proof.Proofs
end

section
/-! Runs of accepted operations: the accumulator's sum (10_state.md R21) and the fields of a record already taken (R25). -/

namespace Sys2Proof.Proofs

open Sys2Proof.Machine Sys2Proof.Laws

/-- What an operation asked of a block after a first reset leaves in the registers: a waiting record stays as it is,
and otherwise the operation's rule is performed (R100, R135). -/
def acceptRegs (p : Params) (r : Regs p) (i : Instr) : Regs p := if r.ov then r else ruleOf p i r

theorem acceptRegs_waiting {p : Params} {r : Regs p} (h : r.ov = true) (i : Instr) : acceptRegs p r i = r := if_pos h

theorem acceptRegs_free {p : Params} {r : Regs p} (h : r.ov = false) (i : Instr) : acceptRegs p r i = ruleOf p i r := by
  simp [acceptRegs, h]

theorem exec_eq_acceptRegs {s : State} (h : s.resetApplied = true) (i : Instr) :
    exec i s = .next { s with regs := acceptRegs s.params s.regs i } := by
  rw [exec_eq_accept, accept, if_pos h, acceptRegs]
  split <;> rfl

/-- After a first reset a list of operations is a fold over the registers and changes nothing else. -/
theorem execAll_eq_foldl {s : State} (h : s.resetApplied = true) (is : List Instr) :
    execAll is s = .next { s with regs := is.foldl (acceptRegs s.params) s.regs } := by
  induction is generalizing s with
  | nil => rfl
  | cons i is ih =>
    rw [execAll, exec_eq_acceptRegs h]
    exact ih h

/-- The shifted payload is the first summand of the group sum, reduced (R21, R83). -/
theorem shiftedPayload_eq_ofNat (p : Params) (cnt : BitVec p.CW) (b : Byte) :
    shiftedPayload p cnt b = BitVec.ofNat p.W ((payload b).toNat <<< (7 * cnt.toNat)) := by
  apply BitVec.eq_of_toNat_eq
  rw [shiftedPayload_toNat, BitVec.toNat_ofNat, payload_toNat, Nat.shiftLeft_eq]

/-- Continuation bytes accepted one after another, within `MAXB` bytes and under REJECT with a sum that fits, add their
group sum to the accumulator and their number to the counter (R21). -/
theorem foldl_acceptRegs_byteCont {p : Params} {r : Regs p} {bs : List Byte} (hov : r.ov = false)
    (hlen : r.cnt.toNat + bs.length ≤ p.MAXB)
    (hfit : p.topBits = .truncate ∨ groupSum r.cnt.toNat bs < 2 ^ p.W) :
    (bs.map Instr.byteCont).foldl (acceptRegs p) r =
      { r with
        acc := r.acc + BitVec.ofNat p.W (groupSum r.cnt.toNat bs)
        cnt := r.cnt + BitVec.ofNat p.CW bs.length } := by
  induction bs generalizing r with
  | nil => simp [groupSum]
  | cons b bs ih =>
    rw [List.length_cons] at hlen
    rw [groupSum] at hfit
    have hsucc := toNat_succ_CW p r.cnt (by omega)
    have hok : failBit p r.cnt b = false := by
      refine failBit_false_of_fits (by omega) (hfit.imp_right fun h => ?_)
      rw [payload_toNat, Nat.shiftLeft_eq] at h
      omega
    have hrest := ih (r := { r with acc := r.acc + shiftedPayload p r.cnt b, cnt := r.cnt + 1 }) hov
      (by rw [hsucc]; omega) (hsucc ▸ hfit.imp_right (Nat.le_add_left _ _).trans_lt)
    rw [List.map_cons, List.foldl_cons, acceptRegs_free hov, ruleOf_byteCont, byteContRule_ok hok, hrest]
    simp only [hsucc, groupSum, List.length_cons, shiftedPayload_eq_ofNat, Nat.add_comm bs.length, BitVec.ofNat_add,
      BitVec.add_assoc]
    rfl

/-- Settles O44: the fold of continuation bytes from `acc = 0` and `cnt = 0`. -/
theorem accumulatorHoldsTheShiftedSum : Obligations.AccumulatorHoldsTheShiftedSum := by
  rintro s bs ⟨⟨ha, hov⟩, hcnt, hacc⟩ hlen hfit
  have hzero : s.regs.cnt.toNat = 0 := by rw [hcnt]; rfl
  rw [execAll_eq_foldl ha, foldl_acceptRegs_byteCont hov (by omega) (by rwa [hzero]), hzero, hcnt, hacc]
  simp

theorem sameButStale_refl {p : Params} (r : Regs p) : r.SameButStale r := ⟨rfl, rfl, rfl, fun _ => ⟨rfl, rfl, rfl⟩⟩

/-- With no record waiting, an operation's rule does not look at the stale fields: a record it emits is the same, and
where it emits none they stay stale (R25). -/
theorem ruleOf_sameButStale {p : Params} (i : Instr) {r r' : Regs p} (h : r.SameButStale r') (hov : r.ov = false) :
    (ruleOf p i r).SameButStale (ruleOf p i r') := by
  obtain ⟨hacc, hcnt, hov', -⟩ := h
  cases i with
  | byteCont b =>
    rw [ruleOf_byteCont]
    cases hf : failBit p r.cnt b with
    | true =>
      rw [byteContRule_fail hf, byteContRule_fail (hcnt ▸ hf), hcnt]
      exact sameButStale_refl _
    | false =>
      rw [byteContRule_ok hf, byteContRule_ok (hcnt ▸ hf), hcnt, hacc]
      exact ⟨rfl, rfl, hov', fun h => absurd (hov.symm.trans h) nofun⟩
  | byteLast b =>
    rw [ruleOf_byteLast]
    cases hf : failBit p r.cnt b with
    | true =>
      rw [byteLastRule_fail hf, byteLastRule_fail (hcnt ▸ hf), hcnt]
      exact sameButStale_refl _
    | false =>
      rw [byteLastRule_ok hf, byteLastRule_ok (hcnt ▸ hf), hcnt, hacc]
      exact sameButStale_refl _
  | endWord low =>
    rw [ruleOf_endWord, endRule_eq, endRule_eq, hcnt]
    exact sameButStale_refl _

/-- Two blocks that differ in stale fields wait together or are both free, and stay so over an operation. -/
theorem acceptRegs_sameButStale {p : Params} (i : Instr) {r r' : Regs p} (h : r.SameButStale r') :
    (acceptRegs p r i).SameButStale (acceptRegs p r' i) := by
  have ⟨_, _, hov, _⟩ := h
  cases ho : r.ov with
  | true => rwa [acceptRegs_waiting ho, acceptRegs_waiting (hov ▸ ho)]
  | false =>
    rw [acceptRegs_free ho, acceptRegs_free (hov ▸ ho)]
    exact ruleOf_sameButStale i h ho

/-- Settles O54: both runs are folds of `acceptRegs`, which keeps register sets the same but for stale fields. -/
theorem staleRecordFieldsAreNeverUsed : Obligations.StaleRecordFieldsAreNeverUsed :=
  fun s r r' is ha h =>
    ⟨is.foldl (acceptRegs s.params) r, is.foldl (acceptRegs s.params) r',
      execAll_eq_foldl (s := { s with regs := r }) ha is, execAll_eq_foldl (s := { s with regs := r' }) ha is,
      List.foldl_rel h fun i _ _ _ => acceptRegs_sameButStale i⟩

end Sys2Proof.Proofs
end

section
/-! The frame of the three operations and the value of one whole varint (20_memory.md R44, R49). -/

namespace Sys2Proof.Proofs

open Sys2Proof.Machine Sys2Proof.Laws

/-- An operation that emits no record is an absorbed byte, and keeps the record fields (R25, R102). -/
theorem ruleOf_keeps_record_of_no_emit {p : Params} (i : Instr) {r : Regs p} (h : (ruleOf p i r).ov = false) :
    currentRecord (ruleOf p i r) = currentRecord r := by
  cases i with
  | byteCont b =>
    rw [ruleOf_byteCont] at h ⊢
    cases hf : failBit p r.cnt b with
    | true => simp [byteContRule_fail hf] at h
    | false => rw [byteContRule_ok hf]; rfl
  | byteLast b =>
    rw [ruleOf_byteLast] at h
    cases hf : failBit p r.cnt b with
    | true => simp [byteLastRule_fail hf] at h
    | false => simp [byteLastRule_ok hf] at h
  | endWord low => simp [endRule_eq] at h

/-- Settles O22: an accepted word leaves a waiting record alone, or performs its rule on the registers and nothing
else. -/
theorem wordsChangeOnlyTheirRegisters : Obligations.WordsChangeOnlyTheirRegisters := by
  intro i s t h
  rw [exec_eq_accept] at h
  obtain ⟨-, ⟨-, rfl⟩ | ⟨hov, rfl⟩⟩ := accept_cases h
  · exact ⟨t.regs, rfl, fun _ => rfl, fun _ => ⟨rfl, rfl, rfl⟩⟩
  · refine ⟨_, rfl, fun hwait => absurd (hov.symm.trans hwait) nofun, fun hno => ?_⟩
    exact Record.mk.inj (ruleOf_keeps_record_of_no_emit i hno)

/-- The group sum of a concatenation: the second part starts at the index where the first ends (R44). -/
theorem groupSum_append (n : Nat) (as bs : List Byte) :
    groupSum n (as ++ bs) = groupSum n as + groupSum (n + as.length) bs := by
  induction as generalizing n with
  | nil => simp [groupSum]
  | cons a as ih =>
    rw [List.cons_append, groupSum, groupSum, ih, List.length_cons, Nat.add_right_comm n, ← Nat.add_assoc,
      ← Nat.add_assoc]

/-- A list of operations goes on where its first part ends. -/
theorem execAll_append {is : List Instr} {s t : State} (h : execAll is s = .next t) (js : List Instr) :
    execAll (is ++ js) s = execAll js t := by
  induction is generalizing s with
  | nil =>
    cases h
    rfl
  | cons i is ih =>
    rw [execAll] at h
    rw [List.cons_append, execAll]
    cases hi : exec i s with
    | next u => exact ih (by rwa [hi] at h)
    | fault r => simp [hi] at h
    | refused r => simp [hi] at h

/-- Settles O45: the continuation bytes leave their group sum in the accumulator and their number in the counter (O44),
and the last byte adds the summand of that index. -/
theorem varintValueIsTheGroupSum : Obligations.VarintValueIsTheGroupSum := by
  intro s bs b hidle hlen hfit
  have ⟨⟨ha, hov⟩, _⟩ := hidle
  have hsum : groupSum 0 (bs ++ [b]) = groupSum 0 bs + (payload b).toNat <<< (7 * bs.length) := by
    simp [groupSum_append, groupSum]
  rw [hsum] at hfit ⊢
  have hindex := toNat_ofNat_CW s.params (n := bs.length) (by omega)
  have hok : failBit s.params (BitVec.ofNat s.params.CW bs.length) b = false := by
    refine failBit_false_of_fits (by omega) (hfit.imp_right fun h => ?_)
    rw [hindex, ← payload_toNat, ← Nat.shiftLeft_eq]
    omega
  have hcont := accumulatorHoldsTheShiftedSum s bs hidle (by omega)
    (hfit.imp_right (Nat.le_add_right _ _).trans_lt)
  rw [execAll_append hcont, execAll_eq_foldl (by exact ha), List.foldl_cons, List.foldl_nil,
    acceptRegs_free (by exact hov), ruleOf_byteLast, byteLastRule_ok hok, shiftedPayload_eq_ofNat, hindex,
    BitVec.ofNat_add, BitVec.ofNat_add]
  rfl

end Sys2Proof.Proofs
end

section
/-! The block against the software decode: one byte, a buffer with its END, and a stream of varints (20_memory.md R41,
R54; 60_exceptions.md R155, R156). -/

namespace Sys2Proof.Proofs

open Sys2Proof.Machine Sys2Proof.Laws

/-- The registers of an idle block with the record `x` waiting: `Regs.emitted`, by the record it emits. -/
def holding {p : Params} (x : Record p) : Regs p :=
  { acc := 0, cnt := 0, ov := true, os := x.status, oval := x.value, ocnt := x.count }

/-- The bytes a software call leaves unread; a call that reached the end of its buffer leaves no next call (R54). -/
def restOf : SoftResult → Option (List Byte)
  | .ok _ _ rest => some rest
  | .insufficient _ => none
  | .malformed _ rest => some rest

/-! ### One byte -/

/-- The accumulator after an absorbed byte is the number the software computes (R86). -/
theorem acc_add_shiftedPayload_toNat {p : Params} (acc : BitVec p.W) (cnt : BitVec p.CW) (b : Byte) :
    (acc + shiftedPayload p cnt b).toNat = (acc.toNat + b.toNat % 128 * 2 ^ (7 * cnt.toNat)) % 2 ^ p.W := by
  rw [BitVec.toNat_add, shiftedPayload_toNat, Nat.add_mod_mod]

/-- The counter after an absorbed byte is the software's next index (R22). -/
theorem ofNat_toNat_succ {w : Nat} (c : BitVec w) : BitVec.ofNat w (c.toNat + 1) = c + 1 := by
  simp [BitVec.ofNat_add]

/-- The datapath's failure is one of the software's two checks (R82, R85). -/
theorem failBit_iff_soft_checks {p : Params} (cnt : BitVec p.CW) (b : Byte) :
    failBit p cnt b = true ↔
      7 * cnt.toNat ≥ p.W ∨ (p.topBits = .reject ∧ b.toNat % 128 * 2 ^ (7 * cnt.toNat) ≥ 2 ^ p.W) := by
  rw [failBit_iff, ← W_le_seven_mul_iff]

/-- A byte that fails a check is MALFORMED, whatever its continuation bit (R155). -/
theorem softDecode_cons_of_fail {p : Params} {r : Regs p} {b : Byte} (hf : failBit p r.cnt b = true) (bs : List Byte) :
    softDecode p r.acc.toNat r.cnt.toNat (b :: bs) = .malformed (r.cnt.toNat + 1) bs := by
  rw [softDecode]
  obtain hshift | htop := (failBit_iff_soft_checks r.cnt b).mp hf
  · rw [if_pos hshift]
  · rw [if_pos htop, ite_self]

/-- A byte that passes both checks is added, and its continuation bit decides (R155). -/
theorem softDecode_cons_of_pass {p : Params} {r : Regs p} {b : Byte} (hf : failBit p r.cnt b = false) (bs : List Byte) :
    softDecode p r.acc.toNat r.cnt.toNat (b :: bs) =
      if b.toNat < 128 then .ok (r.acc + shiftedPayload p r.cnt b).toNat (r.cnt.toNat + 1) bs
      else softDecode p (r.acc + shiftedPayload p r.cnt b).toNat (r.cnt.toNat + 1) bs := by
  rw [← Bool.not_eq_true, failBit_iff_soft_checks, not_or] at hf
  obtain ⟨hshift, htop⟩ := hf
  rw [softDecode, if_neg hshift, if_neg htop, acc_add_shiftedPayload_toNat]

/-- A buffer byte accepted by the block and read by the software either ends the varint for both, with the same record
and the bytes behind it unread, or goes on for both, with the same sum and index. -/
theorem byteWord_ends_or_continues {p : Params} (r : Regs p) (b : Byte) (bs : List Byte) :
    (ruleOf p (decode (byteWord b)) r = holding ((softDecode p r.acc.toNat r.cnt.toNat (b :: bs)).record p) ∧
      restOf (softDecode p r.acc.toNat r.cnt.toNat (b :: bs)) = some bs) ∨
    ((ruleOf p (decode (byteWord b)) r).ov = r.ov ∧
      softDecode p r.acc.toNat r.cnt.toNat (b :: bs) =
        softDecode p (ruleOf p (decode (byteWord b)) r).acc.toNat (ruleOf p (decode (byteWord b)) r).cnt.toNat bs) := by
  cases hf : failBit p r.cnt b with
  | true =>
    refine .inl ?_
    rw [softDecode_cons_of_fail hf, ruleOf_byteWord_fail hf, SoftResult.record, ofNat_toNat_succ]
    exact ⟨rfl, rfl⟩
  | false =>
    rw [softDecode_cons_of_pass hf]
    by_cases hb : b.toNat < 128
    · refine .inl ?_
      rw [if_pos hb, ruleOf_byteWord_last hf hb, SoftResult.record, ofNat_toNat_succ, BitVec.ofNat_toNat,
        BitVec.setWidth_eq]
      exact ⟨rfl, rfl⟩
    · refine .inr ?_
      rw [if_neg hb, ruleOf_byteWord_cont hf (Nat.le_of_not_lt hb),
        toNat_succ_CW p r.cnt (lt_MAXB_of_failBit_false hf).le]
      exact ⟨rfl, rfl⟩

/-- END gives the outcome of a software call with no byte left (R104, R151). -/
theorem endOfBuffer_ends {p : Params} (r : Regs p) :
    ruleOf p (decode endOfBuffer) r = holding ((softDecode p r.acc.toNat r.cnt.toNat []).record p) := by
  rw [softDecode, SoftResult.record, BitVec.ofNat_toNat, BitVec.setWidth_eq]
  rfl

/-! ### A buffer and its END -/

/-- Operations asked of a block whose record waits leave it as it is (R100; log 7). -/
theorem foldl_acceptRegs_waiting {p : Params} {r : Regs p} (h : r.ov = true) (is : List Instr) :
    is.foldl (acceptRegs p) r = r :=
  List.foldl_fixed' (acceptRegs_waiting h) is

/-- From any point of a varint, the bytes left and END leave the record of the software call that goes on from there. -/
theorem foldl_acceptRegs_buffer {p : Params} {r : Regs p} (hov : r.ov = false) (bs : List Byte) :
    (bufferInstrs bs ++ [decode endOfBuffer]).foldl (acceptRegs p) r =
      holding ((softDecode p r.acc.toNat r.cnt.toNat bs).record p) := by
  induction bs generalizing r with
  | nil => exact (acceptRegs_free hov _).trans (endOfBuffer_ends r)
  | cons b bs ih =>
    rw [bufferInstrs, List.map_cons, List.cons_append, List.foldl_cons, acceptRegs_free hov]
    obtain ⟨hend, -⟩ | ⟨hfree, hnext⟩ := byteWord_ends_or_continues r b bs
    · rw [hend]
      exact foldl_acceptRegs_waiting rfl _
    · rw [hnext]
      exact ih (hfree.trans hov)

/-- Settles O48: the fold over a buffer and its END, from `acc = 0` and `cnt = 0`. -/
theorem bufferGivesTheSoftwareOutcome : Obligations.BufferGivesTheSoftwareOutcome := by
  rintro s bs ⟨⟨ha, hov⟩, hcnt, hacc⟩
  rw [execAll_eq_foldl ha, foldl_acceptRegs_buffer hov, hcnt, hacc]
  rfl

/-! ### A stream of varints -/

/-- The records a stream gives from a software outcome on: its own, and those of the bytes it leaves unread (R54). -/
def recordsFrom (p : Params) (fuel : Nat) (o : SoftResult) : List (Record p) :=
  o.record p :: (restOf o).elim [] (streamRecords p fuel)

theorem streamRecords_succ (p : Params) (fuel : Nat) (bs : List Byte) :
    streamRecords p (fuel + 1) bs = recordsFrom p fuel (softDecode p 0 0 bs) := by
  rw [streamRecords]
  cases softDecode p 0 0 bs <;> rfl

/-- A word that raises no record only performs its rule. -/
theorem serveAll_cons_of_no_emit {s : State} (hs : s.Ready) {w : InputWord} (ws : List InputWord)
    (h : (ruleOf s.params (decode w) s.regs).ov = false) :
    serveAll (w :: ws) s = serveAll ws { s with regs := ruleOf s.params (decode w) s.regs } := by
  simp [serveAll, serveWord, exec_ready hs, h]

/-- The block after a varint that ended with the record `x`, which the host has taken. -/
def afterRecord (s : State) (x : Record s.params) : State :=
  { s with regs := { holding x with ov := false }, taken := s.taken ++ [x] }

theorem afterRecord_ready {s : State} (hs : s.Ready) (x : Record s.params) : (afterRecord s x).Ready := ⟨hs.1, rfl⟩

/-- A word that ends a varint hands its record to the host and leaves the block idle (R131, R156). -/
theorem serveAll_cons_of_emit {s : State} (hs : s.Ready) {w : InputWord} (ws : List InputWord) {x : Record s.params}
    (h : ruleOf s.params (decode w) s.regs = holding x) :
    serveAll (w :: ws) s = serveAll ws (afterRecord s x) := by
  simp only [serveAll, serveWord, exec_ready hs, h]
  rfl

/-- From any point of a varint, a host that takes every record gets, for the bytes left and END, the records that follow
from the software call that goes on from there. -/
theorem serveAll_buffer {s : State} (hs : s.Ready) {bs : List Byte} {fuel : Nat} (hfuel : bs.length ≤ fuel) :
    ∃ r : Regs s.params, r.acc = 0 ∧ r.cnt = 0 ∧ r.ov = false ∧
      serveAll (bs.map byteWord ++ [endOfBuffer]) s = .next { s with
        regs := r
        taken := s.taken ++
          recordsFrom s.params fuel (softDecode s.params s.regs.acc.toNat s.regs.cnt.toNat bs) } := by
  induction bs generalizing s fuel with
  | nil => exact ⟨_, rfl, rfl, rfl, serveAll_cons_of_emit hs [] (endOfBuffer_ends s.regs)⟩
  | cons b bs ih =>
    rw [List.map_cons, List.cons_append]
    obtain ⟨hend, hrest⟩ | ⟨hfree, hnext⟩ := byteWord_ends_or_continues s.regs b bs
    · obtain ⟨fuel, rfl⟩ := Nat.exists_eq_add_one_of_ne_zero (Nat.ne_zero_of_lt hfuel)
      rw [serveAll_cons_of_emit hs _ hend, recordsFrom, hrest, Option.elim_some, streamRecords_succ,
        List.append_cons s.taken]
      exact ih (afterRecord_ready hs _) (Nat.le_of_succ_le_succ hfuel)
    · have hov := hfree.trans hs.2
      rw [serveAll_cons_of_no_emit hs _ hov, hnext]
      exact ih (s := { s with regs := ruleOf s.params (decode (byteWord b)) s.regs }) ⟨hs.1, hov⟩
        (Nat.le_of_succ_le hfuel)

/-- The software loop stops at its first outcome that is not OK; the block's records begin with the loop's, and go on
only behind a malformed byte (R54, R156). -/
theorem streamRecords_eq_softLoop_append (p : Params) (fuel : Nat) (bs : List Byte) :
    ∃ more, streamRecords p fuel bs = softLoop p fuel bs ++ more ∧
      ((∀ x ∈ softLoop p fuel bs, x.status ≠ 0b10) → more = []) := by
  induction fuel generalizing bs with
  | zero => exact ⟨[], rfl, fun _ => rfl⟩
  | succ fuel ih =>
    rw [streamRecords, softLoop]
    cases softDecode p 0 0 bs with
    | ok v c rest =>
      obtain ⟨more, hmore, hnil⟩ := ih rest
      exact ⟨more, congrArg _ hmore, fun h => hnil (List.forall_mem_of_forall_mem_cons h)⟩
    | insufficient c => exact ⟨[], rfl, fun _ => rfl⟩
    | malformed c rest => exact ⟨_, rfl, fun h => absurd rfl (h _ (List.mem_singleton_self _))⟩

/-- Settles O49: the run of the whole buffer from `acc = 0` and `cnt = 0`, and the two software loops compared. -/
theorem streamGivesTheSoftwareRecords : Obligations.StreamGivesTheSoftwareRecords := by
  rintro s bs ⟨hs, hcnt, hacc⟩
  have hrun := serveAll_buffer hs (le_refl bs.length)
  rw [hcnt, hacc] at hrun
  exact ⟨streamRecords_succ s.params bs.length bs ▸ hrun, streamRecords_eq_softLoop_append s.params _ bs⟩

end Sys2Proof.Proofs
end

section
/-! Decoding and encoding of input words (30_encoding.md R61, R62, R64, R65). -/

namespace Sys2Proof.Proofs

open Sys2Proof.Machine Sys2Proof.Laws

/-! ### The fields of a word and the operation they select -/

/-- The continuation bit of a word is bit 7 of its byte (R61). -/
theorem getLsbD_seven_dataBits (w : InputWord) : (dataBits w).getLsbD 7 = contBit w := by
  rw [← contBit_wordOf (kindBit w), wordOf_fields]

/-- The payload of a word's byte is `w[6:0]` (R61). -/
theorem payload_dataBits (w : InputWord) : payload (dataBits w) = w.extractLsb' 0 7 := by
  apply BitVec.eq_of_toNat_eq
  rw [payload_toNat, dataBits, BitVec.extractLsb'_toNat, BitVec.extractLsb'_toNat]
  exact Nat.mod_mod_of_dvd _ (by decide)

/-- The words that select BYTE_CONT have kind 0 and continuation bit 1 (R62). -/
theorem decode_eq_byteCont_iff {w : InputWord} {b : Byte} :
    decode w = .byteCont b ↔ (kindBit w = false ∧ contBit w = true) ∧ dataBits w = b := by
  cases hk : kindBit w <;> cases hc : contBit w <;> simp [decode, hk, hc]

/-- The words that select BYTE_LAST have kind 0 and continuation bit 0 (R62). -/
theorem decode_eq_byteLast_iff {w : InputWord} {b : Byte} :
    decode w = .byteLast b ↔ (kindBit w = false ∧ contBit w = false) ∧ dataBits w = b := by
  cases hk : kindBit w <;> cases hc : contBit w <;> simp [decode, hk, hc]

/-- The words that select END have kind 1 (R62). -/
theorem decode_eq_endWord_iff {w : InputWord} {low : Byte} :
    decode w = .endWord low ↔ kindBit w = true ∧ dataBits w = low := by
  cases hk : kindBit w <;> cases hc : contBit w <;> simp [decode, hk, hc]

/-! ### Decoding and encoding are inverse -/

/-- The encoding `01ppppppp` is the BYTE word of a byte with bit 7 set (R62). -/
theorem encode_byteCont {b : Byte} (h : b.getLsbD 7 = true) : encode (.byteCont b) = wordOf false b := by
  revert b
  decide +kernel

/-- The encoding `00ppppppp` is the BYTE word of a byte with bit 7 clear (R62). -/
theorem encode_byteLast {b : Byte} (h : b.getLsbD 7 = false) : encode (.byteLast b) = wordOf false b := by
  revert b
  decide +kernel

/-- The encoding `1xxxxxxxx` is the END word of its ignored bits (R62, R64). -/
theorem encode_endWord (low : Byte) : encode (.endWord low) = wordOf true low := rfl

/-- A well-formed instruction is the one its word decodes to (R62). -/
theorem decode_encode {i : Instr} (h : i.wellFormed = true) : decode (encode i) = i := by
  cases i with
  | byteCont b =>
    have hb : b.getLsbD 7 = true := h
    rw [encode_byteCont hb, decode_eq_byteCont_iff, contBit_wordOf]
    exact ⟨⟨kindBit_wordOf _ _, hb⟩, dataBits_wordOf _ _⟩
  | byteLast b =>
    have hb : b.getLsbD 7 = false := (Bool.not_eq_true' _).mp h
    rw [encode_byteLast hb, decode_eq_byteLast_iff, contBit_wordOf]
    exact ⟨⟨kindBit_wordOf _ _, hb⟩, dataBits_wordOf _ _⟩
  | endWord low =>
    rw [encode_endWord, decode_eq_endWord_iff]
    exact ⟨kindBit_wordOf _ _, dataBits_wordOf _ _⟩

/-- Every word is the word of the instruction it decodes to (R65). -/
theorem encode_decode (w : InputWord) : encode (decode w) = w := by
  cases hi : decode w with
  | byteCont b =>
    obtain ⟨⟨hk, hc⟩, rfl⟩ := decode_eq_byteCont_iff.mp hi
    rw [encode_byteCont ((getLsbD_seven_dataBits w).trans hc), ← hk, wordOf_fields]
  | byteLast b =>
    obtain ⟨⟨hk, hc⟩, rfl⟩ := decode_eq_byteLast_iff.mp hi
    rw [encode_byteLast ((getLsbD_seven_dataBits w).trans hc), ← hk, wordOf_fields]
  | endWord low =>
    obtain ⟨hk, rfl⟩ := decode_eq_endWord_iff.mp hi
    rw [encode_endWord, ← hk, wordOf_fields]

/-- A decoded BYTE operation carries a byte with the continuation bit the operation needs (R62, R65). -/
theorem decode_wellFormed (w : InputWord) : (decode w).wellFormed = true := by
  cases hi : decode w with
  | byteCont b =>
    obtain ⟨⟨-, hc⟩, rfl⟩ := decode_eq_byteCont_iff.mp hi
    exact (getLsbD_seven_dataBits w).trans hc
  | byteLast b =>
    obtain ⟨⟨-, hc⟩, rfl⟩ := decode_eq_byteLast_iff.mp hi
    exact (Bool.not_eq_true' _).mpr ((getLsbD_seven_dataBits w).trans hc)
  | endWord low => rfl

/-- Settles O1: an instruction and its word have the same kind, continuation bit and byte. -/
theorem decodeAndEncodeAgree : Obligations.DecodeAndEncodeAgree :=
  ⟨fun _ => decode_encode, encode_decode, decode_wellFormed⟩

/-! ### Words written out, matches and masks, and END words -/

/-- Settles O2: the six words evaluated. -/
theorem wordsWrittenOutDecode : Obligations.WordsWrittenOutDecode := by
  unfold Obligations.WordsWrittenOutDecode
  decide

/-- The match and mask of BYTE_CONT test the two top bits (R62). -/
theorem match_byteCont_iff (w : InputWord) : w &&& 0x180#9 = 0x080#9 ↔ kindBit w = false ∧ contBit w = true := by
  revert w
  decide +kernel

/-- The match and mask of BYTE_LAST test the two top bits (R62). -/
theorem match_byteLast_iff (w : InputWord) : w &&& 0x180#9 = 0x000#9 ↔ kindBit w = false ∧ contBit w = false := by
  revert w
  decide +kernel

/-- The match and mask of END test the top bit (R62). -/
theorem match_endWord_iff (w : InputWord) : w &&& 0x100#9 = 0x100#9 ↔ kindBit w = true := by
  revert w
  decide +kernel

/-- Settles O3: a row's match and mask and the decoder's selection test the same bits, and the byte is `w[7:0]`. -/
theorem wordSelectsOperationByMatchAndMask : Obligations.WordSelectsOperationByMatchAndMask := by
  refine fun w => ⟨?_, ?_, ?_⟩
  · simp [match_byteCont_iff, decode_eq_byteCont_iff, payload_dataBits]
  · simp [match_byteLast_iff, decode_eq_byteLast_iff, payload_dataBits]
  · simp [match_endWord_iff, decode_eq_endWord_iff]

/-- Settles O4: a word with bit 8 set is an END, whose rule does not look at the low bits. -/
theorem endWordsActAlike : Obligations.EndWordsActAlike := by
  intro w w' s hw hw'
  rw [decode_eq_endWord_iff.mpr ⟨hw, rfl⟩, decode_eq_endWord_iff.mpr ⟨hw', rfl⟩, exec_eq_accept, exec_eq_accept]
  rfl

end Sys2Proof.Proofs
end

section
/-! Overlong varints and the round trip through the canonical encoder (30_encoding.md R69, R70; 95_test_vectors.md
L1-8). -/

namespace Sys2Proof.Proofs

open Sys2Proof.Machine Sys2Proof.Laws

/-! ### The bytes of one varint -/

/-- The bytes of one varint: the continuation bit is set in all but the last (R44). -/
def IsVarint (l : List Byte) : Prop :=
  ∃ bs b, l = bs ++ [b] ∧ (∀ x ∈ bs, x.getLsbD 7 = true) ∧ b.getLsbD 7 = false

theorem isVarint_concat {bs : List Byte} {b : Byte} (hbs : ∀ x ∈ bs, x.getLsbD 7 = true) (hb : b.getLsbD 7 = false) :
    IsVarint (bs ++ [b]) := ⟨bs, b, rfl, hbs, hb⟩

theorem isVarint_cons {a : Byte} {l : List Byte} (ha : a.getLsbD 7 = true) (hl : IsVarint l) : IsVarint (a :: l) := by
  obtain ⟨bs, b, rfl, hbs, hb⟩ := hl
  exact isVarint_concat (List.forall_mem_cons.mpr ⟨ha, hbs⟩) hb

/-- A varint is sent as BYTE_CONT words and one BYTE_LAST word (R62). -/
theorem bufferInstrs_concat {bs : List Byte} {b : Byte} (hbs : ∀ x ∈ bs, x.getLsbD 7 = true)
    (hb : b.getLsbD 7 = false) : bufferInstrs (bs ++ [b]) = bs.map Instr.byteCont ++ [.byteLast b] := by
  have hcont : bufferInstrs bs = bs.map Instr.byteCont :=
    List.map_congr_left fun x hx => (decode_byteWord x).trans (if_pos (hbs x hx))
  have hlast : decode (byteWord b) = .byteLast b := by rw [decode_byteWord, hb]; rfl
  rw [← hcont, ← hlast]
  exact List.map_append

/-- From idle, the words of a varint within `MAXB` bytes, under REJECT with a sum that fits, complete with its group sum
and its length (R44). -/
theorem execAll_varint {s : State} {l : List Byte} (hidle : s.IdleReady) (hl : IsVarint l)
    (hlen : l.length ≤ s.params.MAXB) (hfit : s.params.topBits = .truncate ∨ groupSum 0 l < 2 ^ s.params.W) :
    execAll (bufferInstrs l) s = .next { s with
      regs := Regs.emitted .ok (BitVec.ofNat s.params.W (groupSum 0 l)) (BitVec.ofNat s.params.CW l.length) } := by
  obtain ⟨bs, b, rfl, hbs, hb⟩ := hl
  rw [List.length_append] at hlen ⊢
  rw [bufferInstrs_concat hbs hb]
  exact varintValueIsTheGroupSum s bs b hidle hlen hfit

/-! ### Overlong varints -/

/-- The group sum stays below the shift of the byte behind it (R24, R44). -/
theorem groupSum_add_two_pow_le (n : Nat) (bs : List Byte) :
    groupSum n bs + 2 ^ (7 * n) ≤ 2 ^ (7 * (n + bs.length)) := by
  induction bs generalizing n with
  | nil => simp [groupSum]
  | cons b bs ih =>
    have hstep := payload_mul_add_le b n
    have hrest := ih (n + 1)
    rw [groupSum, payload_toNat, Nat.shiftLeft_eq, List.length_cons, Nat.add_comm bs.length, ← Nat.add_assoc]
    omega

/-- The sum of fewer than `MAXB` bytes fits `W` bits (R6). -/
theorem groupSum_lt_two_pow_W {p : Params} {bs : List Byte} (h : bs.length < p.MAXB) : groupSum 0 bs < 2 ^ p.W := by
  have hshift : 7 * bs.length < p.W := by
    rwa [← Nat.not_le, W_le_seven_mul_iff, Nat.not_le]
  calc groupSum 0 bs < groupSum 0 bs + 2 ^ (7 * 0) := Nat.lt_succ_self _
    _ ≤ 2 ^ (7 * (0 + bs.length)) := groupSum_add_two_pow_le 0 bs
    _ ≤ 2 ^ p.W := Nat.pow_le_pow_right (by decide) (by omega)

/-- Bytes with payload 0 add nothing (R69). -/
theorem groupSum_eq_zero {n : Nat} {bs : List Byte} (h : ∀ x ∈ bs, payload x = 0) : groupSum n bs = 0 := by
  induction bs generalizing n with
  | nil => rfl
  | cons b bs ih =>
    obtain ⟨hb, hbs⟩ := List.forall_mem_cons.mp h
    simp [groupSum, hb, ih hbs]

/-- Setting the continuation bit keeps the payload (R61, R63). -/
theorem payload_or_contBit (b : Byte) : payload (b ||| 0x80#8) = payload b := by
  revert b
  decide +kernel

/-- The overlong form of a varint: `k + 1` bytes with payload 0 behind it (R69). -/
def overlong (bs : List Byte) (b : Byte) (k : Nat) : List Byte :=
  bs ++ [b ||| 0x80#8] ++ List.replicate k 0x80#8 ++ [0x00#8]

theorem overlong_length (bs : List Byte) (b : Byte) (k : Nat) : (overlong bs b k).length = bs.length + 1 + k + 1 := by
  simp only [overlong, List.length_append, List.length_replicate, List.length_singleton]

theorem overlong_isVarint {bs : List Byte} (hbs : ∀ x ∈ bs, x.getLsbD 7 = true) (b : Byte) (k : Nat) :
    IsVarint (overlong bs b k) := by
  refine isVarint_concat (fun x hx => ?_) rfl
  rw [List.mem_append, List.mem_append, List.mem_singleton, List.mem_replicate] at hx
  obtain (hx | rfl) | ⟨-, rfl⟩ := hx
  · exact hbs x hx
  · simp
  · rfl

/-- The overlong form has the same group sum (R69). -/
theorem overlong_groupSum (bs : List Byte) (b : Byte) (k : Nat) :
    groupSum 0 (overlong bs b k) = groupSum 0 (bs ++ [b]) := by
  have hzero : ∀ x ∈ List.replicate k 0x80#8 ++ [0x00#8], payload x = 0 := by
    intro x hx
    rw [List.mem_append, List.mem_replicate, List.mem_singleton] at hx
    obtain ⟨-, rfl⟩ | rfl := hx <;> rfl
  rw [overlong, List.append_assoc (bs ++ _), groupSum_append, groupSum_eq_zero hzero]
  simp [groupSum_append, groupSum, payload_or_contBit]

/-- Settles O46: both forms are varints with one group sum, and the short one has fewer than `MAXB` bytes, so the sum
fits. -/
theorem overlongVarintsKeepTheirValue : Obligations.OverlongVarintsKeepTheirValue := by
  intro s bs b k hidle hbs hb hlen
  have hshort : (bs ++ [b]).length = bs.length + 1 := List.length_append
  have hfit : groupSum 0 (bs ++ [b]) < 2 ^ s.params.W := groupSum_lt_two_pow_W (by omega)
  refine ⟨BitVec.ofNat s.params.W (groupSum 0 (bs ++ [b])), ?_, ?_⟩
  · exact hshort ▸ execAll_varint hidle (isVarint_concat hbs hb) (by omega) (.inr hfit)
  · rw [← overlong_groupSum bs b k] at hfit ⊢
    rw [← overlong_length bs b k] at hlen ⊢
    exact execAll_varint hidle (overlong_isVarint hbs b k) hlen (.inr hfit)

/-! ### The canonical encoder -/

/-- The payload of a byte written as a number (R63). -/
theorem payload_ofNat_toNat (n : Nat) : (payload (BitVec.ofNat 8 n)).toNat = n % 128 := by
  rw [payload_toNat, BitVec.toNat_ofNat]
  exact Nat.mod_mod_of_dvd n (by decide)

/-- The continuation bit of a byte written as a number (R10). -/
theorem getLsbD_seven_ofNat {n : Nat} (h : n < 256) : (BitVec.ofNat 8 n).getLsbD 7 = decide (128 ≤ n) := by
  rw [getLsbD_seven, BitVec.toNat_ofNat, Nat.mod_eq_of_lt h]

/-- A number below 128 is a varint of one byte. -/
theorem isVarint_singleton {n : Nat} (h : n < 128) : IsVarint [BitVec.ofNat 8 n] :=
  isVarint_concat (bs := []) nofun (by rw [getLsbD_seven_ofNat (by omega)]; exact decide_eq_false (by omega))

/-- The group sum of a number below 128 in one byte. -/
theorem groupSum_singleton {v : Nat} (h : v < 128) (n : Nat) : groupSum n [BitVec.ofNat 8 v] = v * 2 ^ (7 * n) := by
  rw [groupSum, groupSum, payload_ofNat_toNat, Nat.mod_eq_of_lt h, Nat.shiftLeft_eq, Nat.add_zero]

/-- The encoder's bytes are a varint (R70). -/
theorem enc_isVarint (fuel v : Nat) : IsVarint (enc fuel v) := by
  induction fuel generalizing v with
  | zero => exact isVarint_singleton (Nat.mod_lt v (by decide))
  | succ fuel ih =>
    rw [enc]
    split
    case isTrue hlt => exact isVarint_singleton hlt
    case isFalse =>
      refine isVarint_cons ?_ (ih (v / 128))
      rw [getLsbD_seven_ofNat (by omega)]
      exact decide_eq_true (Nat.le_add_left _ _)

/-- A number below `2^(7*k)` takes at most `k` bytes (R70). -/
theorem enc_length_le {fuel v k : Nat} (hk : 0 < k) (hv : v < 2 ^ (7 * k)) : (enc fuel v).length ≤ k := by
  induction fuel generalizing v k with
  | zero => exact hk
  | succ fuel ih =>
    rw [enc]
    split
    case isTrue => exact hk
    case isFalse hge =>
      obtain ⟨k, rfl⟩ := Nat.exists_eq_add_one_of_ne_zero hk.ne'
      rw [Nat.mul_succ, Nat.pow_add] at hv
      have hrest : v / 128 < 2 ^ (7 * k) := Nat.div_lt_of_lt_mul (by omega)
      have hk' : 0 < k := Nat.pos_of_ne_zero fun h => by subst h; omega
      exact Nat.succ_le_succ (ih hk' hrest)

/-- The group sum of the encoder's bytes is the number encoded, if the cut-off leaves all its bytes (R44, R70). -/
theorem enc_groupSum {fuel v : Nat} (hv : v < 2 ^ (7 * (fuel + 1))) (n : Nat) :
    groupSum n (enc fuel v) = v * 2 ^ (7 * n) := by
  induction fuel generalizing v n with
  | zero =>
    have hlt : v < 128 := hv
    rw [enc, Nat.mod_eq_of_lt hlt]
    exact groupSum_singleton hlt n
  | succ fuel ih =>
    rw [enc]
    split
    case isTrue hlt => exact groupSum_singleton hlt n
    case isFalse =>
      rw [Nat.mul_succ, Nat.pow_add] at hv
      have hrest : v / 128 < 2 ^ (7 * (fuel + 1)) := Nat.div_lt_of_lt_mul (by omega)
      rw [groupSum, ih hrest, payload_ofNat_toNat, Nat.add_mod_right, Nat.mod_mod, Nat.shiftLeft_eq]
      calc v % 128 * 2 ^ (7 * n) + v / 128 * 2 ^ (7 * (n + 1))
          = (v % 128 + 128 * (v / 128)) * 2 ^ (7 * n) := by ring
        _ = v * 2 ^ (7 * n) := by rw [Nat.mod_add_div]

/-- Settles O47: `enc v` is a varint of at most `MAXB` bytes with group sum `v`, which fits `W` bits. -/
theorem roundTripOfEveryValue : Obligations.RoundTripOfEveryValue := by
  intro s v hidle hv
  have hMAXB : v < 2 ^ (7 * s.params.MAXB) :=
    hv.trans_le (Nat.pow_le_pow_right (by decide) ((W_le_seven_mul_iff _ _).mpr le_rfl))
  have hlen : (enc s.params.MAXB v).length ≤ s.params.MAXB :=
    enc_length_le (Nat.zero_lt_of_lt (five_le_MAXB s.params)) hMAXB
  have hsum : groupSum 0 (enc s.params.MAXB v) = v := by
    rw [enc_groupSum (hMAXB.trans_le (Nat.pow_le_pow_right (by decide) (by omega)))]
    exact Nat.mul_one v
  have hrun := execAll_varint hidle (enc_isVarint _ v) hlen (.inr (hsum.symm ▸ hv))
  rw [hsum] at hrun
  exact ⟨hlen, hrun⟩

end Sys2Proof.Proofs
end

section
/-! The datapath's shift check, lost bits, shifted payload and addition (40_datapath.md R82-R87). -/

namespace Sys2Proof.Proofs

open Sys2Proof.Machine Sys2Proof.Laws

variable {p : Params} {cnt : BitVec p.CW} {b : Byte}

/-! ### The checks -/

/-- The shift check on the shift amount itself (R82). -/
theorem shiftOvf_iff_W_le : shiftOvf p cnt = true ↔ p.W ≤ 7 * cnt.toNat :=
  (shiftOvf_iff p cnt).trans (W_le_seven_mul_iff p cnt.toNat).symm

/-- A shift is valid exactly below `MAXB` (R82). -/
theorem shiftOvf_eq_false_iff : shiftOvf p cnt = false ↔ cnt.toNat < p.MAXB := by
  rw [← Bool.not_eq_true, shiftOvf_iff, Nat.not_le]

/-- The shift check alone makes a byte fail (R82, R88). -/
theorem failBit_of_shiftOvf (h : shiftOvf p cnt = true) (b : Byte) : failBit p cnt b = true :=
  (failBit_iff p cnt b).mpr (.inl ((shiftOvf_iff p cnt).mp h))

@[simp] theorem SA_fail (acc : BitVec p.W) (cnt : BitVec p.CW) (b : Byte) : (SA acc cnt b).fail = failBit p cnt b := rfl

/-- Without a failure, `acc_next` is the sum (R86). -/
theorem SA_accNext_of_pass (h : failBit p cnt b = false) (acc : BitVec p.W) :
    (SA acc cnt b).accNext = acc + shiftedPayload p cnt b := by
  simp [SA, h]

/-- The three conditions of the top-bits check (R85). -/
theorem topFail_iff :
    topFail p cnt b = true ↔ p.topBits = .reject ∧ shiftOvf p cnt = false ∧ lostBits p cnt b ≠ 0 := by
  simp [topFail, and_assoc]

/-- Settles O6: both forms of the shift check, and the failure it alone makes. -/
theorem shiftCheckFailsEveryByte : Obligations.ShiftCheckFailsEveryByte := fun p cnt =>
  ⟨shiftOvf_iff_W_le, shiftOvf_iff p cnt, fun h => (shiftOvf_iff p cnt).trans ⟨h.antisymm, Eq.ge⟩,
    fun h _ => failBit_of_shiftOvf h⟩

/-- Settles O8: the check's conditions, of which TRUNCATE denies the first, and the last-byte test. -/
theorem topBitsCheckAndLastByteTest : Obligations.TopBitsCheckAndLastByteTest := by
  refine fun p acc cnt b => ⟨topFail_iff, fun htrunc => ?_, rfl⟩
  rw [← Bool.not_eq_true, topFail_iff, htrunc]
  exact fun ⟨hreject, _⟩ => nomatch hreject

/-! ### The lost bits and the bits that remain -/

/-- The lost bits of a valid shift (R84). -/
theorem lostBits_of_valid_shift (h : shiftOvf p cnt = false) (b : Byte) :
    lostBits p cnt b = payload b >>> (p.W - 7 * cnt.toNat) := by
  rw [lostBits, h]
  rfl

/-- A payload with room for its seven bits loses none (R84). -/
theorem lostBits_eq_zero_of_room (h : 7 * cnt.toNat + 7 ≤ p.W) (b : Byte) : lostBits p cnt b = 0 := by
  have hvalid : shiftOvf p cnt = false := by
    rw [← Bool.not_eq_true, shiftOvf_iff_W_le]
    omega
  rw [lostBits_of_valid_shift hvalid]
  exact BitVec.ushiftRight_eq_zero (by omega)

/-- Bits are only lost by the byte at index `MAXB - 1`, where `W` is no multiple of 7 (R84). -/
theorem last_index_of_lostBits_ne_zero (h : shiftOvf p cnt = false) (hlost : lostBits p cnt b ≠ 0) :
    cnt.toNat + 1 = p.MAXB ∧ p.W % 7 ≠ 0 := by
  have hcnt := shiftOvf_eq_false_iff.mp h
  exact last_index_of_payload_lost hcnt ((lostBits_ne_zero_iff p cnt b hcnt).mp hlost)

/-- The payload without its `k` low bits is the field of the byte above them (R61, R63). -/
theorem payload_ushiftRight (b : Byte) (k : Nat) : payload b >>> k = (b.extractLsb' k (7 - k)).zeroExtend 7 := by
  ext i hi
  simp [payload, Nat.lt_sub_iff_add_lt']

/-- With room for `k` of the seven payload bits, the field above them is lost (R84). -/
theorem lostBits_of_room {k : Nat} (h : shiftOvf p cnt = false) (hW : p.W = 7 * cnt.toNat + k) (b : Byte) :
    lostBits p cnt b = (b.extractLsb' k (7 - k)).zeroExtend 7 := by
  rw [lostBits_of_valid_shift h, hW, Nat.add_sub_cancel_left, payload_ushiftRight]

/-- With room for `k` of the seven payload bits, the `k` low ones remain, at the top of the value (R83, R84). -/
theorem shiftedPayload_toNat_of_room {k : Nat} (hk : k ≤ 7) (hW : p.W = 7 * cnt.toNat + k) (b : Byte) :
    (shiftedPayload p cnt b).toNat = (b.extractLsb' 0 k).toNat * 2 ^ (7 * cnt.toNat) := by
  have hlow : b.toNat % 128 % 2 ^ k = b.toNat % 2 ^ k := Nat.mod_mod_of_dvd _ (Nat.pow_dvd_pow 2 hk)
  rw [shiftedPayload_toNat, hW, Nat.add_comm, Nat.pow_add, Nat.mul_mod_mul_right, hlow, BitVec.extractLsb'_toNat]
  rfl

/-- The field of the one bit `b[0]` (R10). -/
theorem extractLsb'_zero_one_toNat (b : Byte) : (b.extractLsb' 0 1).toNat = (b.getLsbD 0).toNat := by
  revert b
  decide +kernel

/-- The shifted payload in the form of R83. -/
theorem shiftedPayload_toNat_shiftLeft (p : Params) (cnt : BitVec p.CW) (b : Byte) :
    (shiftedPayload p cnt b).toNat = ((b.toNat % 128) <<< (7 * cnt.toNat)) % 2 ^ p.W := by
  rw [shiftedPayload_toNat, Nat.shiftLeft_eq]

/-- Settles O7: at the reference widths the byte at index `MAXB - 1` has room for 1 and for 4 payload bits, and under
TRUNCATE a valid shift is the only condition. -/
theorem lostPayloadBits : Obligations.LostPayloadBits := by
  intro p acc cnt b h
  refine ⟨lostBits_of_valid_shift h b, (lostBits_eq_zero_of_room · b), last_index_of_lostBits_ne_zero h,
    fun hW hcnt => ?_, fun hW hcnt => ?_, fun htrunc => ?_⟩
  · have hroom : p.W = 7 * cnt.toNat + 1 := by omega
    refine ⟨lostBits_of_room h hroom b, ?_⟩
    rw [shiftedPayload_toNat_of_room (by decide) hroom, hcnt, extractLsb'_zero_one_toNat]
  · have hroom : p.W = 7 * cnt.toNat + 4 := by omega
    refine ⟨lostBits_of_room h hroom b, ?_⟩
    rw [shiftedPayload_toNat_of_room (by decide) hroom, hcnt]
  · have hpass : failBit p cnt b = false := failBit_false_of_fits (shiftOvf_eq_false_iff.mp h) (.inl htrunc)
    exact ⟨hpass, SA_accNext_of_pass hpass acc, payload_toNat b ▸ shiftedPayload_toNat_shiftLeft p cnt b⟩

/-! ### The shifted payload and the addition -/

/-- The bits of the shifted payload below the shift are 0 (R83). -/
theorem shiftedPayload_getLsbD_of_lt {i : Nat} (h : i < 7 * cnt.toNat) (b : Byte) :
    (shiftedPayload p cnt b).getLsbD i = false := by
  simp [shiftedPayload, shiftAmount, h]

/-- Settles O9: the number and its low bits, and on a shift overflow both BYTE rules emit a record without the byte. -/
theorem shiftedPayloadIsTheShiftedNumber : Obligations.ShiftedPayloadIsTheShiftedNumber := by
  refine ⟨fun p cnt b _ => ⟨shiftedPayload_toNat_shiftLeft p cnt b, fun _ hi => shiftedPayload_getLsbD_of_lt hi b⟩,
    fun p r b b' h => ?_⟩
  have hfail := failBit_of_shiftOvf h
  exact ⟨(byteContRule_fail (hfail b)).trans (byteContRule_fail (hfail b')).symm,
    (byteLastRule_fail (hfail b)).trans (byteLastRule_fail (hfail b')).symm⟩

/-- An accumulator below `2^sh` and the shifted payload have no bit in common (R86). -/
theorem acc_and_shiftedPayload {acc : BitVec p.W} (h : acc.toNat < 2 ^ (7 * cnt.toNat)) (b : Byte) :
    acc &&& shiftedPayload p cnt b = 0#p.W := by
  apply BitVec.eq_of_getLsbD_eq
  intro i _
  rw [BitVec.getLsbD_and, BitVec.getLsbD_zero]
  by_cases hi : i < 7 * cnt.toNat
  · rw [shiftedPayload_getLsbD_of_lt hi, Bool.and_false]
  · have hacc : acc.getLsbD i = false :=
      Nat.testBit_lt_two_pow (h.trans_le (Nat.pow_le_pow_right (by decide) (Nat.le_of_not_lt hi)))
    rw [hacc, Bool.false_and]

/-- Settles O10: the summands have no bit in common, so there is no carry and the sum is the bitwise or. -/
theorem additionNeverCarries : Obligations.AdditionNeverCarries := by
  intro p acc cnt b hacc hpass
  have hdisjoint := acc_and_shiftedPayload hacc b
  rw [SA_accNext_of_pass hpass]
  refine ⟨?_, rfl, BitVec.add_eq_or_of_and_eq_zero _ _ hdisjoint⟩
  rw [← BitVec.toNat_add_of_and_eq_zero hdisjoint]
  exact BitVec.isLt _

end Sys2Proof.Proofs
end

section
/-! The three operations on the registers: their writes, the sum and the count in numbers, and the word that waits
(41_input_words.md R100, R102, R103, R104). -/

namespace Sys2Proof.Proofs

open Sys2Proof.Machine Sys2Proof.Laws

/-- Settles O11: an accepted BYTE_CONT performs `byteContRule`, whose two branches these are. -/
theorem byteContWritesItsRegisters : Obligations.ByteContWritesItsRegisters :=
  fun _ b hs => exec_ready hs (.byteCont b)

/-- Settles O12: an accepted BYTE_LAST performs `byteLastRule`, whose two branches these are. -/
theorem byteLastWritesItsRegisters : Obligations.ByteLastWritesItsRegisters :=
  fun _ b hs => exec_ready hs (.byteLast b)

/-- Settles O13: an accepted END performs `endRule`, in which its low bits do not occur. -/
theorem endWritesItsRegisters : Obligations.EndWritesItsRegisters :=
  fun _ low hs => exec_ready hs (.endWord low)

/-- Settles O15: the byte passes the checks, so it is absorbed; the sum is the datapath's and the counter does not wrap
below `MAXB`. -/
theorem byteContAccumulates : Obligations.ByteContAccumulates := by
  intro s b hs hcnt hfit
  have hpass := failBit_false_of_fits hcnt hfit
  refine ⟨_, exec_ready hs (.byteCont b), ?_⟩
  rw [ruleOf_byteCont, byteContRule_ok hpass]
  exact ⟨acc_add_shiftedPayload_toNat _ _ b, toNat_succ_CW _ _ hcnt.le, hs.2, rfl, rfl, rfl⟩

/-- Settles O16: the byte passes the checks, so the record is OK with the datapath's sum. -/
theorem byteLastEmitsTheSum : Obligations.ByteLastEmitsTheSum := by
  intro s b hs hcnt hfit
  have hpass := failBit_false_of_fits hcnt hfit
  refine ⟨_, exec_ready hs (.byteLast b), ?_⟩
  rw [ruleOf_byteLast, byteLastRule_ok hpass]
  exact ⟨acc_add_shiftedPayload_toNat _ _ b, toNat_succ_CW _ _ hcnt.le, rfl, rfl, rfl, rfl⟩

/-- Settles O23: after a first reset an operation acts on the registers by `acceptRegs`, which leaves a waiting record
alone. -/
theorem wordWaitsForPendingRecord : Obligations.WordWaitsForPendingRecord := by
  intro i s ha hov
  rw [exec_eq_acceptRegs ha, acceptRegs_waiting hov]

end Sys2Proof.Proofs
end

section
/-! The edge of a host that keeps its duties, with `rst = 0`: a word transfers or none does (41_input_words.md R100,
R105; 42_result_channel.md R131, R138). -/

namespace Sys2Proof.Proofs

open Sys2Proof.Machine Sys2Proof.Laws

variable {s : State} {pins : Pins} {w : InputWord}

/-- A word offered to a free block is the one it accepts (R100). -/
theorem acceptedWord_of_offer (hov : s.regs.ov = false) (hoffer : pins.offer = some w) :
    acceptedWord pins s = some w := by
  simp [acceptedWord, inReady, hov, hoffer]

/-- Without an offer, or with a record waiting, no word is accepted (R100, R135). -/
theorem acceptedWord_eq_none (h : pins.inValid = some false ∨ s.regs.ov = true) : acceptedWord pins s = none := by
  obtain hv | hov := h
  · simp [acceptedWord, Pins.offer, hv]
  · simp [acceptedWord, inReady, hov]

/-- A hand-over needs a record waiting and a ready host (R131). -/
theorem handsOver_iff : handsOver pins s = true ↔ s.regs.ov = true ∧ pins.outReady = some true := by
  simp [handsOver, outValid]

theorem clockEdge_of_acceptedWord (hkept : s.DutiesKept pins) (hr : pins.rst = some false)
    (hw : acceptedWord pins s = some w) : clockEdge pins s = exec (decode w) { s with offered := none } := by
  rw [clockEdge_running (dutyBroken_of_kept hkept) (by simp [hr]) hkept.1, hw]

/-- Where no word transfers, the edge is a hand-over or a stutter (R105, R138). -/
theorem clockEdge_of_no_word (hkept : s.DutiesKept pins) (hr : pins.rst = some false)
    (hw : acceptedWord pins s = none) :
    clockEdge pins s = .next (noteOffer pins (if handsOver pins s then takeRecord s else s)) := by
  rw [clockEdge_running (dutyBroken_of_kept hkept) (by simp [hr]) hkept.1, hw, apply_ite (noteOffer pins),
    apply_ite Host.Outcome.next]

/-- Settles O34: the edge is a hand-over, which lowers `ov` and nothing else of the registers, or a stutter. -/
theorem edgeWithoutAWordKeepsTheAttempt : Obligations.EdgeWithoutAWordKeepsTheAttempt := by
  intro s pins rest hp hkept hr hno
  rw [step_cons hp, clockEdge_of_no_word (s := { s with plan := rest }) hkept hr (acceptedWord_eq_none hno)]
  cases hh : handsOver pins { s with plan := rest } with
  | true =>
    obtain ⟨hov, hready⟩ := handsOver_iff.mp hh
    exact ⟨false, s.taken ++ [currentRecord s.regs], rest, pins.offer, rfl, .inr ⟨hov, rfl, hready⟩⟩
  | false => exact ⟨s.regs.ov, s.taken, rest, pins.offer, rfl, .inl rfl⟩

/-- Settles O25: the offered word meets a free block, so the edge accepts it. -/
theorem stepRunsTheOfferedWord : Obligations.StepRunsTheOfferedWord := by
  intro s pins rest w hp hkept hr hov hoffer
  rw [step_cons hp]
  exact clockEdge_of_acceptedWord (s := { s with plan := rest }) hkept hr (acceptedWord_of_offer hov hoffer)

/-- A host that sends a word where nothing is outstanding keeps its duties (R137). -/
theorem withOffer_dutiesKept (w : InputWord) (s : State) : (withOffer w s).DutiesKept (Pins.sending w) :=
  ⟨rfl, rfl, fun _ => nofun, .inl rfl⟩

/-- Settles O26: `withFetchWord` plans a cycle that offers the word to a free block (O25). -/
theorem fetchWordRunsNext : Obligations.FetchWordRunsNext := by
  intro s nbits w hw
  have hword : tableWord w = some (BitVec.ofNat 9 w) := if_pos hw
  refine ⟨decode (BitVec.ofNat 9 w), by rw [decodeTableWord, hword, Option.map_some], ?_⟩
  rw [State.withFetchWord, hword]
  exact stepRunsTheOfferedWord (withOffer _ s) _ s.plan _ rfl (withOffer_dutiesKept _ s) rfl rfl (sending_offer _)

end Sys2Proof.Proofs
end

section
/-! The count of bytes over the words of a varint and of a stream (41_input_words.md R107, R108). -/

namespace Sys2Proof.Proofs

open Sys2Proof.Machine Sys2Proof.Laws

/-- The number of bytes of the varint in progress an operation consumes (R108). -/
def bytesOf : Instr → Nat
  | .byteCont _ => 1
  | .byteLast _ => 1
  | .endWord _ => 0

/-- An operation ends the varint in a record that counts its own byte too, or it is a continuation byte that passes the
checks (R102, R103, R104). -/
theorem ruleOf_emits_or_absorbs {p : Params} (i : Instr) {r : Regs p} (hcnt : r.cnt.toNat ≤ p.MAXB) :
    (∃ st v c, ruleOf p i r = Regs.emitted st v c ∧ c.toNat = r.cnt.toNat + bytesOf i) ∨
    ∃ b, i = .byteCont b ∧ failBit p r.cnt b = false := by
  have hsucc := toNat_succ_CW p r.cnt hcnt
  cases i with
  | byteCont b =>
    cases hf : failBit p r.cnt b with
    | true => exact .inl ⟨_, _, _, byteContRule_fail hf, hsucc⟩
    | false => exact .inr ⟨b, rfl, hf⟩
  | byteLast b =>
    cases hf : failBit p r.cnt b with
    | true => exact .inl ⟨_, _, _, byteLastRule_fail hf, hsucc⟩
    | false => exact .inl ⟨_, _, _, byteLastRule_ok hf, hsucc⟩
  | endWord low => exact .inl ⟨_, _, _, endRule_eq r, rfl⟩

/-! ### One varint -/

/-- From any point of a varint, more operations than the counter has room for produce a record: each that produces none
moves the counter up, and none does so at `MAXB` (R107). -/
theorem exists_take_foldl_acceptRegs_emits {p : Params} {r : Regs p} {is : List Instr} (hov : r.ov = false)
    (hcnt : r.cnt.toNat ≤ p.MAXB) (hlen : p.MAXB < r.cnt.toNat + is.length) :
    ∃ k ≤ is.length, ((is.take k).foldl (acceptRegs p) r).ov = true := by
  induction is generalizing r with
  | nil => exact absurd hcnt (Nat.not_le_of_lt hlen)
  | cons i is ih =>
    obtain ⟨st, v, c, hemit, -⟩ | ⟨b, rfl, hpass⟩ := ruleOf_emits_or_absorbs i hcnt
    · refine ⟨1, by simp, ?_⟩
      simp [acceptRegs_free hov, hemit]
    · have hsucc := toNat_succ_CW p r.cnt hcnt
      have hroom := lt_MAXB_of_failBit_false hpass
      rw [List.length_cons] at hlen
      obtain ⟨k, hk, hemit⟩ :=
        ih (r := { r with acc := r.acc + shiftedPayload p r.cnt b, cnt := r.cnt + 1 }) hov
          (by rw [hsucc]; omega) (by rw [hsucc]; omega)
      refine ⟨k + 1, Nat.succ_le_succ hk, ?_⟩
      rwa [List.take_succ_cons, List.foldl_cons, acceptRegs_free hov, ruleOf_byteCont, byteContRule_ok hpass]

/-- Settles O50: from `cnt = 0` the counter has room for `MAXB` operations. -/
theorem attemptsAreBounded : Obligations.AttemptsAreBounded := by
  rintro s is ⟨⟨ha, hov⟩, hcnt, -⟩ hlen
  have hzero : s.regs.cnt.toNat = 0 := by rw [hcnt]; rfl
  obtain ⟨k, hk, hemit⟩ := exists_take_foldl_acceptRegs_emits (is := is) hov (by omega) (by omega)
  exact ⟨k, _, hlen ▸ hk, execAll_eq_foldl ha _, hemit⟩

/-! ### A stream of words -/

/-- A word is one byte of its varint exactly when its kind bit is 0 (R61, R62). -/
theorem byteWords_cons (w : InputWord) (ws : List InputWord) :
    byteWords (w :: ws) = bytesOf (decode w) + byteWords ws := by
  rw [byteWords, decode, kindBit]
  split
  · rfl
  · split <;> rfl

theorem countSum_append_singleton {p : Params} (xs : List (Record p)) (x : Record p) :
    countSum (xs ++ [x]) = countSum xs + x.count.toNat := by
  induction xs with
  | nil => exact Nat.add_comm _ _
  | cons y ys ih => rw [List.cons_append, countSum, countSum, ih, Nat.add_assoc]

/-- The bytes accounted for in a state: those of the records taken and of the varint in progress (R108). -/
def bytesAccounted (s : State) : Nat := countSum s.taken + s.regs.cnt.toNat

/-- A record taken moves its count from the varint in progress to the records (R131, R156). -/
theorem bytesAccounted_afterRecord (s : State) (x : Record s.params) :
    bytesAccounted (afterRecord s x) = countSum s.taken + x.count.toNat :=
  countSum_append_singleton s.taken x

/-- One word with a host that takes every record accounts for its own byte and leaves the block ready for the next
word (R108). -/
theorem serveAll_cons {s : State} (hs : s.Ready) (hinv : s.regs.Inv) (w : InputWord) (ws : List InputWord) :
    ∃ t : State, serveAll (w :: ws) s = serveAll ws t ∧ t.Ready ∧ t.regs.Inv ∧
      bytesAccounted t = bytesAccounted s + bytesOf (decode w) := by
  have ⟨hcnt, _⟩ := hinv
  have hinv' := ruleOf_inv (decode w) hinv hs.2
  obtain ⟨st, v, c, hemit, hcount⟩ | ⟨b, hcont, hpass⟩ := ruleOf_emits_or_absorbs (decode w) hcnt
  · refine ⟨afterRecord s ⟨st.code, v, c⟩, serveAll_cons_of_emit hs ws hemit, afterRecord_ready hs _, ?_, ?_⟩
    · exact handOver_inv (r := Regs.emitted st v c) (hemit ▸ hinv')
    · rw [bytesAccounted_afterRecord, hcount, bytesAccounted, Nat.add_assoc]
  · have habsorb := byteContRule_ok hpass
    rw [hcont, ruleOf_byteCont] at hinv'
    have hov : (byteContRule b s.regs).ov = false := by rw [habsorb]; exact hs.2
    have hsucc : (byteContRule b s.regs).cnt.toNat = s.regs.cnt.toNat + 1 := by
      rw [habsorb]; exact toNat_succ_CW _ _ hcnt
    refine ⟨{ s with regs := byteContRule b s.regs }, ?_, ⟨hs.1, hov⟩, hinv', ?_⟩
    · rw [serveAll_cons_of_no_emit hs ws (by rwa [hcont]), hcont, ruleOf_byteCont]
    · rw [bytesAccounted, bytesAccounted, hsucc, hcont, bytesOf, Nat.add_assoc]

/-- Settles O51: each word of the stream accounts for its own byte (`serveAll_cons`). -/
theorem consumedBytesAreAccountedFor : Obligations.ConsumedBytesAreAccountedFor := by
  intro s ws hs hinv
  induction ws generalizing s with
  | nil => exact ⟨s, rfl, hs, rfl⟩
  | cons w ws ih =>
    obtain ⟨u, hserve, hu, huinv, hcount⟩ := serveAll_cons hs hinv w ws
    obtain ⟨t, hrun, ht, htotal⟩ := ih u hu huinv
    refine ⟨t, hserve.trans hrun, ht, ?_⟩
    calc bytesAccounted t
        = bytesAccounted u + byteWords ws := htotal
      _ = bytesAccounted s + byteWords (w :: ws) := by rw [hcount, byteWords_cons, Nat.add_assoc]

end Sys2Proof.Proofs
end

section
/-! The record an operation emits: legal, with the block idle behind it, and an error without the partial value
(42_result_channel.md R130, R133, R134; 60_exceptions.md R156). -/

namespace Sys2Proof.Proofs

open Sys2Proof.Machine Sys2Proof.Laws

/-- Settles O21: the rule keeps the registers' invariant, whose last clause is about a waiting record. -/
theorem emittedRecordsAreLegalAndLeaveIdle : Obligations.EmittedRecordsAreLegalAndLeaveIdle := by
  intro i s hs hinv
  refine ⟨_, exec_ready hs i, fun hemit => ?_⟩
  obtain ⟨-, -, -, -, hwaiting⟩ := ruleOf_inv i hinv hs.2
  obtain ⟨hcnt, hacc, hlegal⟩ := hwaiting hemit
  exact ⟨hlegal, hacc, hcnt⟩

/-- A rule that emits an error record does not look at the accumulator: BYTE operations fail by the counter and the byte
alone, and END never reads it (R88, R104, R133). -/
theorem ruleOf_with_acc_of_error {p : Params} (i : Instr) {r : Regs p} (hov : r.ov = false)
    (hemit : (ruleOf p i r).ov = true) (herror : (ruleOf p i r).os ≠ 0b00) (acc : BitVec p.W) :
    ruleOf p i { r with acc := acc } = ruleOf p i r := by
  cases i with
  | byteCont b =>
    rw [ruleOf_byteCont] at hemit ⊢
    cases hf : failBit p r.cnt b with
    | true => exact (byteContRule_fail (r := { r with acc := acc }) hf).trans (byteContRule_fail hf).symm
    | false => simp [byteContRule_ok hf, hov] at hemit
  | byteLast b =>
    rw [ruleOf_byteLast] at herror ⊢
    cases hf : failBit p r.cnt b with
    | true => exact (byteLastRule_fail (r := { r with acc := acc }) hf).trans (byteLastRule_fail hf).symm
    | false => exact absurd (congrArg Regs.os (byteLastRule_ok hf)) herror
  | endWord low => rfl

/-- Settles O53: both acceptances perform the same rule, which ignores the accumulator when it emits an error. -/
theorem partialValueIsNeverVisible : Obligations.PartialValueIsNeverVisible := by
  intro s t i acc hs h hemit herror
  cases (exec_ready hs i).symm.trans h
  rw [exec_ready (s := { s with regs := { s.regs with acc := acc } }) hs i]
  exact congrArg (fun r => Host.Outcome.next { s with regs := r }) (ruleOf_with_acc_of_error i hs.2 hemit herror acc)

/-- Settles O14: the writes of `emit` and the codes by their definitions; an operation that meets a waiting record keeps
the registers (O22). -/
theorem emitWritesTheResultRegister : Obligations.EmitWritesTheResultRegister := by
  refine ⟨fun _ _ _ _ _ => rfl, rfl, rfl, rfl, fun i s t h hov => ?_⟩
  obtain ⟨r, rfl, hwait, -⟩ := wordsChangeOnlyTheirRegisters i s t h
  rw [hwait hov]

/-- Settles O24: every operation goes through `accept`, which needs a reset applied. -/
theorem noWordIsAcceptedBeforeReset : Obligations.NoWordIsAcceptedBeforeReset := by
  intro i s ha
  rw [exec_eq_accept, accept, ha]
  rfl

end Sys2Proof.Proofs
end

section
/-! The result channel at a clock edge: a waiting record, the host's liberties and its duties (42_result_channel.md
R131, R132, R135-R138, R140). -/

namespace Sys2Proof.Proofs

open Sys2Proof.Machine Sys2Proof.Laws

variable {s t : State} {pins : Pins} {rest : List Pins}

/-! ### A waiting record -/

/-- While a record waits, an edge with `rst = 0` hands it over to a host that is ready, and does nothing for one that is
not, whatever word is offered (R131, R135). -/
theorem step_of_waiting (hp : s.plan = pins :: rest) (hkept : s.DutiesKept pins) (hr : pins.rst = some false)
    (hov : s.regs.ov = true) :
    step s = .next (noteOffer pins
      (if pins.outReady = some true then takeRecord { s with plan := rest } else { s with plan := rest })) := by
  rw [step_cons hp, clockEdge_of_no_word (s := { s with plan := rest }) hkept hr (acceptedWord_eq_none (.inr hov))]
  simp only [handsOver_iff, hov, true_and]

/-- Settles O31: the hand-over branch of an edge at which a record waits. -/
theorem takeHandsTheRecordOver : Obligations.TakeHandsTheRecordOver := by
  intro s pins rest hp hkept hr hov hready
  refine ⟨rest, pins.offer, ?_⟩
  rw [step_of_waiting hp hkept hr hov, if_pos hready]
  rfl

/-- Settles O32: the other branch of an edge at which a record waits. -/
theorem noWordIsAcceptedWhileARecordWaits : Obligations.NoWordIsAcceptedWhileARecordWaits := by
  refine ⟨fun _ _ => rfl, fun s pins rest hp hkept hr hov hbusy => ⟨rest, pins.offer, ?_⟩⟩
  rw [step_of_waiting hp hkept hr hov, if_neg (by simp [hbusy])]
  rfl

/-- What an edge can do to a waiting record: reset discards it, a ready host takes it, or it stays (R140). -/
theorem step_cases_of_waiting (hp : s.plan = pins :: rest) (ha : s.resetApplied = true) (hov : s.regs.ov = true)
    (h : step s = .next t) :
    (pins.rst = some true ∧ t = noteOffer pins (resetBlock { s with plan := rest })) ∨
    (pins.outReady = some true ∧ t = noteOffer pins (takeRecord { s with plan := rest })) ∨
    t = noteOffer pins { s with plan := rest } := by
  rw [step_cons hp] at h
  obtain ⟨-, ⟨hr, ht⟩ | ⟨-, hbefore, -⟩ | ⟨-, -, hfree, -⟩ | ⟨-, -, -, hready, ht⟩ | ⟨-, -, -, -, ht⟩⟩ :=
    clockEdge_cases h
  · exact .inl ⟨hr, ht⟩
  · exact absurd (ha.symm.trans hbefore) nofun
  · exact absurd (hov.symm.trans hfree) nofun
  · exact .inr (.inl ⟨hready, ht⟩)
  · exact .inr (.inr ht)

/-- A reset after the first one writes the registers only (R180). -/
theorem resetBlock_of_resetApplied (ha : s.resetApplied = true) :
    resetBlock s = { s with regs := Regs.reset s.params } := by
  rw [resetBlock, ha]

/-- Where no record waits, a step hands none over: it only writes registers (R140). -/
theorem step_taken_of_free (ha : s.resetApplied = true) (hov : s.regs.ov = false) (h : step s = .next t) :
    ∃ (r : Regs s.params) (pl : List Pins) (o : Option InputWord),
      t = { s with regs := r, plan := pl, offered := o } := by
  cases stepEffect_of_step h with
  | stutter pl o => exact ⟨s.regs, pl, o, rfl⟩
  | reset pl o => exact ⟨Regs.reset s.params, pl, o, by rw [resetBlock_of_resetApplied ha]⟩
  | redraw pl o hbefore => exact absurd (ha.symm.trans hbefore) nofun
  | accept pl o i hs => exact ⟨ruleOf s.params i s.regs, pl, o, rfl⟩
  | take pl o _ hwait => exact absurd (hov.symm.trans hwait) nofun

/-- Settles O40: an empty plan is a stutter, and an edge does to a waiting record what `step_cases_of_waiting` says. -/
theorem recordsAreNeitherLostNorDoubled : Obligations.RecordsAreNeitherLostNorDoubled := by
  refine fun s t ha h => ⟨fun hov => ?_, fun hov => step_taken_of_free ha hov h⟩
  cases hp : s.plan with
  | nil =>
    rw [step_nil hp] at h
    cases h
    exact .inl ⟨s.plan, s.offered, rfl⟩
  | cons pins rest =>
    obtain ⟨hr, rfl⟩ | ⟨-, rfl⟩ | rfl := step_cases_of_waiting hp ha hov h
    · rw [resetBlock_of_resetApplied (by exact ha)]
      exact .inr (.inr ⟨pins, rest, pins.offer, rfl, hr, rfl⟩)
    · exact .inr (.inl ⟨rest, pins.offer, rfl⟩)
    · exact .inl ⟨rest, pins.offer, rfl⟩

/-- Settles O33: the ports by their definitions, and the one case of an edge at which a record waits that neither `rst`
nor `out_ready` excludes. -/
theorem outputsDriveTheRegisters : Obligations.OutputsDriveTheRegisters := by
  refine fun s rst => ⟨rfl, rfl, rfl, rfl, fun hvalid => ?_, fun t pins rest hp ha hov hr hbusy h => ?_⟩
  · have hlow : outValid rst s.regs.ov = false := hvalid
    rw [State.visibleRecord, hlow]
    rfl
  · obtain ⟨hreset, -⟩ | ⟨hready, -⟩ | rfl := step_cases_of_waiting hp ha hov h
    · exact absurd (hr.symm.trans hreset) nofun
    · exact absurd (hbusy.symm.trans hready) nofun
    · exact ⟨rest, pins.offer, rfl⟩

/-- A word is accepted where it is offered to a block with no record waiting, and nowhere else (R100). -/
theorem acceptedWord_eq_some_iff {w : InputWord} :
    acceptedWord pins s = some w ↔ s.regs.ov = false ∧ pins.inValid = some true ∧ pins.word = some w := by
  simp [acceptedWord, inReady, Pins.offer]

/-- Settles O35: a word is accepted with `ov = 0` and a record handed over with `ov = 1`. -/
theorem acceptAndTakeExclude : Obligations.AcceptAndTakeExclude := by
  refine fun s pins => ⟨?_, fun w => acceptedWord_eq_some_iff.mp⟩
  rintro ⟨haccept, htake⟩
  obtain ⟨hov, -⟩ := handsOver_iff.mp htake
  rw [acceptedWord_eq_none (.inr hov)] at haccept
  exact nomatch haccept

/-! ### Liberties and duties -/

/-- An edge at which no duty is broken answers a next state (R136, R138). -/
theorem clockEdge_completes (hd : dutyBroken pins s = none) : ∃ t, clockEdge pins s = .next t := by
  by_cases hr : pins.rst = some true
  · exact ⟨_, clockEdge_reset hd hr⟩
  cases ha : s.resetApplied with
  | false => exact ⟨_, clockEdge_before_reset hd hr ha⟩
  | true =>
    rw [clockEdge_running hd hr ha]
    cases acceptedWord pins s with
    | some w => exact ⟨_, exec_eq_acceptRegs (s := { s with offered := none }) ha (decode w)⟩
    | none =>
      cases handsOver pins s with
      | true => exact ⟨_, rfl⟩
      | false => exact ⟨_, rfl⟩

/-- Settles O36: a host that keeps its duties breaks none. -/
theorem everyLibertyHasAMove : Obligations.EveryLibertyHasAMove := by
  refine ⟨fun _ => step_nil, fun s pins rest hp hkept => ?_⟩
  rw [step_cons hp]
  exact clockEdge_completes (dutyBroken_of_kept hkept)

theorem step_refused (hp : s.plan = pins :: rest) {r : Refusal} (hd : dutyBroken pins s = some r) :
    step s = .refused r :=
  (step_cons hp).trans (clockEdge_refused hd)

/-- Settles O37: each clause names the first duty that `dutyBroken` finds broken; an unknown control pin and an unknown
word give one refusal, so their order does not matter. -/
theorem brokenDutiesAreRefused : Obligations.BrokenDutiesAreRefused := by
  refine fun s pins rest hp => ⟨fun ha hunknown => step_refused hp ?_, fun hv hw => step_refused hp ?_,
    fun ha hknown hw hwaits hchanged => step_refused hp ?_, fun ha ho hr hv hw => step_refused hp ?_⟩
  · simp [dutyBroken, ha, hunknown]
  · simp [dutyBroken, hv, hw]
  · have hword : ¬ (pins.inValid = some true ∧ pins.word = none) := fun ⟨hv, hnone⟩ => hw hv hnone
    simp [dutyBroken, ha, hknown, hword, hwaits, hchanged, Option.isSome_iff_ne_none]
  · simp [dutyBroken, ha, ho, hr, hv, hw]

end Sys2Proof.Proofs
end

section
/-! The error records and the order of the checks that raise them (60_exceptions.md R151, R152, R153, R155). -/

namespace Sys2Proof.Proofs

open Sys2Proof.Machine Sys2Proof.Laws

/-! ### MALFORMED -/

/-- The two causes of a failure (R88). -/
theorem failBit_iff_shiftOvf_or_topFail {p : Params} {cnt : BitVec p.CW} {b : Byte} :
    failBit p cnt b = true ↔ shiftOvf p cnt = true ∨ topFail p cnt b = true :=
  Bool.or_eq_true_iff

/-- A byte that fails gives the same MALFORMED record by both BYTE operations (R102, R103, R155). -/
theorem exec_byte_of_fail {s : State} (hs : s.Ready) {b : Byte} (hf : failBit s.params s.regs.cnt b = true) :
    exec (.byteCont b) s = .next { s with regs := Regs.emitted .malformed 0 (s.regs.cnt + 1) } ∧
    exec (.byteLast b) s = .next { s with regs := Regs.emitted .malformed 0 (s.regs.cnt + 1) } := by
  rw [exec_ready hs, exec_ready hs, ruleOf_byteCont, ruleOf_byteLast, byteContRule_fail hf, byteLastRule_fail hf]
  exact ⟨rfl, rfl⟩

/-- Settles O17: at `cnt = MAXB` the shift check fails every byte, and the count `MAXB + 1` does not wrap. -/
theorem byteAtMaxbIsMalformed : Obligations.ByteAtMaxbIsMalformed := by
  intro s b hs hcnt
  have hovf : shiftOvf s.params s.regs.cnt = true := (shiftOvf_iff _ _).mpr hcnt.ge
  obtain ⟨hcont, hlast⟩ := exec_byte_of_fail hs (failBit_of_shiftOvf hovf b)
  have hcount : (s.regs.cnt + 1).toNat = s.params.MAXB + 1 := by rw [toNat_succ_CW _ _ hcnt.le, hcnt]
  refine ⟨_, hcont, hlast, rfl, rfl, rfl, hcount, fun hW => ?_, fun hW => ?_⟩
  · obtain ⟨hMAXB, -⟩ := constants_of_W_eq_64 hW
    rw [emitted_ocnt, hcount, hMAXB]
  · obtain ⟨hMAXB, -⟩ := constants_of_W_eq_32 hW
    rw [emitted_ocnt, hcount, hMAXB]

/-- With room for `k` of the seven payload bits, a bit is lost exactly when the field above them is not 0 (R84, R153). -/
theorem lostBits_ne_zero_iff_of_room {p : Params} {cnt : BitVec p.CW} {k : Nat} (h : shiftOvf p cnt = false)
    (hW : p.W = 7 * cnt.toNat + k) (b : Byte) : lostBits p cnt b ≠ 0 ↔ b.extractLsb' k (7 - k) ≠ 0 := by
  rw [lostBits_of_room h hW, Ne, Ne, ← BitVec.toNat_inj, ← BitVec.toNat_inj, BitVec.zeroExtend_eq_setWidth,
    BitVec.toNat_setWidth_of_le (Nat.sub_le 7 k)]
  rfl

/-- Settles O18: the byte at index `MAXB - 1` has a valid shift, so under REJECT a lost bit is what fails it, under
TRUNCATE nothing does, and the reference widths have room for 1 and for 4 of its payload bits. -/
theorem lostTopBitsAreMalformedUnderReject : Obligations.LostTopBitsAreMalformedUnderReject := by
  intro s b hs hcnt
  have hlt : s.regs.cnt.toNat < s.params.MAXB := Nat.lt_of_succ_le hcnt.le
  have hvalid := shiftOvf_eq_false_iff.mpr hlt
  refine ⟨fun hreject hlost => ?_, fun hW => ?_, fun hW => ?_, fun htrunc => ?_⟩
  · have htop := topFail_iff.mpr ⟨hreject, hvalid, hlost⟩
    obtain ⟨hcont, hlast⟩ := exec_byte_of_fail hs (failBit_iff_shiftOvf_or_topFail.mpr (.inr htop))
    exact ⟨_, hcont, hlast, rfl, rfl, rfl, (toNat_succ_CW _ _ hlt.le).trans hcnt⟩
  · obtain ⟨hMAXB, -⟩ := constants_of_W_eq_64 hW
    exact lostBits_ne_zero_iff_of_room hvalid (by omega) b
  · obtain ⟨hMAXB, -⟩ := constants_of_W_eq_32 hW
    exact lostBits_ne_zero_iff_of_room hvalid (by omega) b
  · have hpass : failBit s.params s.regs.cnt b = false := failBit_false_of_fits hlt (.inl htrunc)
    refine ⟨⟨_, exec_ready hs (.byteCont b), ?_⟩, ⟨_, exec_ready hs (.byteLast b), ?_⟩⟩
    · rw [ruleOf_byteCont, byteContRule_ok hpass]
      exact hs.2
    · rw [ruleOf_byteLast, byteLastRule_ok hpass]
      exact ⟨rfl, rfl⟩

/-! ### INSUFFICIENT -/

/-- A free block raises INSUFFICIENT by END alone: a BYTE operation emits MALFORMED or OK, or nothing (R151). -/
theorem endWord_of_ruleOf_insufficient {p : Params} {i : Instr} {r : Regs p} (hov : r.ov = false)
    (hemit : (ruleOf p i r).ov = true) (hos : (ruleOf p i r).os = 0b01) : ∃ low, i = .endWord low := by
  cases i with
  | byteCont b =>
    rw [ruleOf_byteCont] at hemit hos
    cases hf : failBit p r.cnt b with
    | true => simp [byteContRule_fail hf, Status.code] at hos
    | false => simp [byteContRule_ok hf, hov] at hemit
  | byteLast b =>
    rw [ruleOf_byteLast] at hos
    cases hf : failBit p r.cnt b with
    | true => simp [byteLastRule_fail hf, Status.code] at hos
    | false => simp [byteLastRule_ok hf, Status.code] at hos
  | endWord low => exact ⟨low, rfl⟩

/-- Settles O19: only an END raises the status, and its rule writes the value and the count. -/
theorem insufficientComesFromEndOnly : Obligations.InsufficientComesFromEndOnly := by
  intro i s hs
  refine ⟨_, exec_ready hs i, ⟨fun ⟨hemit, hos⟩ => endWord_of_ruleOf_insufficient hs.2 hemit hos, ?_⟩,
    fun hemit hos => ?_⟩
  · rintro ⟨low, rfl⟩
    exact ⟨rfl, rfl⟩
  · obtain ⟨low, rfl⟩ := endWord_of_ruleOf_insufficient hs.2 hemit hos
    exact ⟨rfl, rfl⟩

/-! ### The order of the checks -/

/-- A buffer byte that passes the checks emits a record exactly when its continuation bit is 0, and that record is OK
(R155). -/
theorem ruleOf_byteWord_pass {p : Params} {b : Byte} {r : Regs p} (hov : r.ov = false)
    (hpass : failBit p r.cnt b = false) :
    ((ruleOf p (decode (byteWord b)) r).ov = true ↔ b.getLsbD 7 = false) ∧
    ((ruleOf p (decode (byteWord b)) r).ov = true → (ruleOf p (decode (byteWord b)) r).os = 0b00) := by
  rw [decode_byteWord]
  cases hb : b.getLsbD 7 with
  | true => simp [byteContRule_ok hpass, hov]
  | false => simp [byteLastRule_ok hpass, Status.code]

/-- Settles O20: END reaches no check; a byte is sent by its continuation bit, which decides only when neither check
fails; and the top-bits check asks for a valid shift. -/
theorem checksAreInOrder : Obligations.ChecksAreInOrder := by
  intro s b hs
  refine ⟨⟨_, exec_ready hs _, rfl, rfl⟩, fun hfail => ?_, fun hshift htop => ?_, fun ⟨hshift, htop⟩ => ?_⟩
  · have hmalformed := ruleOf_byteWord_fail (failBit_iff_shiftOvf_or_topFail.mpr hfail)
    exact ⟨_, exec_ready hs _, by rw [hmalformed]; exact ⟨rfl, rfl⟩⟩
  · have hpass : failBit s.params s.regs.cnt b = false := Bool.or_eq_false_iff.mpr ⟨hshift, htop⟩
    exact ⟨_, exec_ready hs _, ruleOf_byteWord_pass hs.2 hpass⟩
  · obtain ⟨-, hvalid, -⟩ := topFail_iff.mp htop
    exact absurd (hshift.symm.trans hvalid) nofun

end Sys2Proof.Proofs
end

section
/-! Reset edges, the edge counts of an eager host, and the pins an edge does not look at (70_reset_and_hazards.md
R180-R188). -/

namespace Sys2Proof.Proofs

open Sys2Proof.Machine Sys2Proof.Laws

variable {s t : State} {pins : Pins} {rest : List Pins}

/-! ### Reset edges -/

/-- A step at which the host asserts `rst` is a reset (R180, R181). -/
theorem step_of_reset (hp : s.plan = pins :: rest) (hd : dutyBroken pins s = none) (hr : pins.rst = some true) :
    step s = .next (noteOffer pins (resetBlock { s with plan := rest })) :=
  (step_cons hp).trans (clockEdge_reset hd hr)

/-- Settles O27: the edge is a reset, which leaves the rest of the plan and the host's offer of this cycle. -/
theorem resetEdgeResetsEveryRegister : Obligations.ResetEdgeResetsEveryRegister :=
  fun _ pins rest hp hd hr => ⟨rest, pins.offer, step_of_reset hp hd hr⟩

/-- Settles O29: the state after a reset edge holds the reset registers. -/
theorem idleAndReadyAfterReset : Obligations.IdleAndReadyAfterReset := by
  intro s t pins rest hp hd hr h
  cases (step_of_reset hp hd hr).symm.trans h
  exact ⟨⟨⟨rfl, rfl⟩, rfl, rfl⟩, rfl, rfl⟩

/-- Settles O30: a host that only asserts `rst` breaks no duty before the first reset, so the edge is a reset. -/
theorem oneResetEdgeBoots : Obligations.OneResetEdgeBoots := fun p n =>
  step_of_reset (s := { State.powerOn p n with plan := [Pins.resetting] }) rfl rfl rfl

/-- A host that goes on offering its standing word, with its control pins known, keeps its duties (R137, R185). -/
theorem dutiesKept_of_standing_offer {w : InputWord} (ha : s.resetApplied = true) (hknown : pins.controlsKnown = true)
    (hstanding : s.offered = some w) (hoffer : pins.offer = some w) : s.DutiesKept pins := by
  refine ⟨ha, hknown, fun hv => ?_, .inr (hoffer.trans hstanding.symm)⟩
  rw [Pins.offer, if_pos hv] at hoffer
  simp [hoffer]

/-- Settles O28: the reset edge accepts nothing and leaves the offer standing, and the next edge finds a free block and
the word still offered (O25). -/
theorem resetDominatesTransfers : Obligations.ResetDominatesTransfers := by
  refine ⟨fun ov => by simp [inReady, outValid], ?_⟩
  intro s pins pins' rest w hp hd hr hoffer hr' hready' hv' hoffer'
  have hknown : pins'.controlsKnown = true := by simp [Pins.controlsKnown, hr', hv', hready']
  rw [runSteps_succ 1 (step_of_reset hp hd hr), runSteps_one]
  exact stepRunsTheOfferedWord (noteOffer pins (resetBlock { s with plan := pins' :: rest })) pins' rest w rfl
    (dutiesKept_of_standing_offer rfl hknown hoffer hoffer') hr' rfl hoffer'

/-! ### The edges of an eager host -/

/-- A run goes on where its first part ends. -/
theorem runSteps_add {k : Nat} (h : runSteps k s = .next t) (m : Nat) : runSteps (k + m) s = runSteps m t := by
  induction k generalizing s with
  | zero =>
    cases h
    rw [Nat.zero_add]
  | succ k ih =>
    rw [Nat.succ_add]
    cases hst : step s with
    | next u =>
      rw [runSteps_succ _ hst] at h ⊢
      exact ih h
    | fault r => simp [runSteps, hst] at h
    | refused r => simp [runSteps, hst] at h

/-- A word sent to a free block with no offer outstanding is accepted at the next edge (R100). -/
theorem step_of_sending (hs : s.Ready) (ho : s.offered = none) (w : InputWord) (rest : List Pins) :
    step { s with plan := Pins.sending w :: rest } =
      .next { s with regs := acceptRegs s.params s.regs (decode w), plan := rest } := by
  obtain ⟨ha, hov⟩ := hs
  have hkept : State.DutiesKept { s with plan := Pins.sending w :: rest } (Pins.sending w) :=
    ⟨ha, rfl, fun _ => nofun, .inl ho⟩
  rw [stepRunsTheOfferedWord _ _ rest w rfl hkept rfl hov (sending_offer w), ← ho]
  exact exec_eq_acceptRegs (s := { s with plan := rest }) ha (decode w)

/-- A waiting record is handed over at the next edge to a host that offers nothing and is ready (R131). -/
theorem step_of_receiving (ha : s.resetApplied = true) (hov : s.regs.ov = true) (ho : s.offered = none)
    (rest : List Pins) :
    step { s with plan := Pins.receiving :: rest } = .next (takeRecord { s with plan := rest }) := by
  have hkept : State.DutiesKept { s with plan := Pins.receiving :: rest } Pins.receiving := ⟨ha, rfl, nofun, .inl ho⟩
  have hready : Pins.receiving.outReady = some true := rfl
  rw [step_of_waiting rfl hkept rfl hov, if_pos hready, noteOffer, receiving_offer, ← ho]
  rfl

/-- An eager host's bytes are accepted at one edge each, as long as no record is emitted before the last of them (R100,
R188). -/
theorem runSteps_eagerPlan (ha : s.resetApplied = true) (ho : s.offered = none) {bs : List Byte} (b : Byte)
    (rest : List Pins) (hfree : ((bufferInstrs bs).foldl (acceptRegs s.params) s.regs).ov = false) :
    runSteps (bs.length + 1) { s with plan := eagerPlan (bs ++ [b]) ++ rest } = .next { s with
      regs := (bufferInstrs (bs ++ [b])).foldl (acceptRegs s.params) s.regs
      plan := Pins.receiving :: rest } := by
  induction bs generalizing s with
  | nil => exact (runSteps_one _).trans (step_of_sending ⟨ha, hfree⟩ ho (byteWord b) (Pins.receiving :: rest))
  | cons c bs ih =>
    have hov : s.regs.ov = false := by
      cases hov : s.regs.ov with
      | false => rfl
      | true => rwa [foldl_acceptRegs_waiting hov, hov] at hfree
    have hfirst := step_of_sending ⟨ha, hov⟩ ho (byteWord c) (eagerPlan (bs ++ [b]) ++ rest)
    have hothers := ih (s := { s with regs := acceptRegs s.params s.regs (decode (byteWord c)) }) ha ho hfree
    exact (runSteps_succ _ hfirst).trans hothers

/-- Continuation bytes within `MAXB - 1` bytes emit no record: their sum fits (R24, R102). -/
theorem foldl_acceptRegs_continuation_free (hidle : s.IdleReady) {bs : List Byte}
    (hbs : ∀ x ∈ bs, x.getLsbD 7 = true) (hlen : bs.length < s.params.MAXB) :
    ((bufferInstrs bs).foldl (acceptRegs s.params) s.regs).ov = false := by
  obtain ⟨⟨-, hov⟩, hcnt, -⟩ := hidle
  have hzero : s.regs.cnt.toNat = 0 := by rw [hcnt]; rfl
  have hcont : bufferInstrs bs = bs.map Instr.byteCont :=
    List.map_congr_left fun x hx => (decode_byteWord x).trans (if_pos (hbs x hx))
  rw [hcont, foldl_acceptRegs_byteCont hov (by omega) (.inr (hzero ▸ groupSum_lt_two_pow_W hlen))]
  exact hov

/-- Settles O52: the bytes are accepted at one edge each, since the continuation bytes emit no record; the last leaves
the record of O45, and the next edge hands it over. -/
theorem eagerVarintTakesItsLengthPlusOneEdges : Obligations.EagerVarintTakesItsLengthPlusOneEdges := by
  intro s bs b rest hidle ho hbs hb hlen hfit hp
  have ⟨⟨ha, _⟩, _⟩ := hidle
  have hbytes := runSteps_eagerPlan ha ho b rest (foldl_acceptRegs_continuation_free hidle hbs hlen)
  have hrecord := execAll_varint (s := { s with plan := Pins.receiving :: rest }) hidle (isVarint_concat hbs hb)
    (by simpa using hlen) hfit
  rw [execAll_eq_foldl (by exact ha)] at hrecord
  have hemit := hbytes.trans hrecord
  rw [← hp, List.length_append] at hemit
  refine ⟨_, rfl, ?_⟩
  rw [runSteps_add hemit 1, runSteps_one]
  exact step_of_receiving (s := { s with regs := Regs.emitted .ok _ _ }) ha rfl ho rest

/-! ### Pins that an edge does not look at -/

/-- An edge looks at the pins through the duties, `rst`, the offered word and the hand-over only (R138). -/
theorem clockEdge_congr {pins pins' : Pins} (hduty : dutyBroken pins s = dutyBroken pins' s)
    (hrst : pins.rst = pins'.rst) (hoffer : pins.offer = pins'.offer) (htake : handsOver pins s = handsOver pins' s) :
    clockEdge pins s = clockEdge pins' s := by
  have hnote : noteOffer pins = noteOffer pins' := by funext t; rw [noteOffer, noteOffer, hoffer]
  have hpre : preResetEdge pins s = preResetEdge pins' s := by rw [preResetEdge, preResetEdge, hrst]
  have hword : acceptedWord pins s = acceptedWord pins' s := by rw [acceptedWord, acceptedWord, hoffer]
  rw [clockEdge, clockEdge, hduty, hrst, hnote, hpre, hword, htake]

/-- Settles O55: with `in_valid = 0` no word is offered whatever the word ports hold, and without a record waiting none
is handed over whatever a known `out_ready` is. -/
theorem ignoredPinsHaveNoEffect : Obligations.IgnoredPinsHaveNoEffect := by
  refine fun s pins rest => ⟨fun k d hv => ?_, fun x y hov hx => ?_⟩
  · rw [step_cons rfl, step_cons rfl]
    refine clockEdge_congr ?_ rfl (by simp [Pins.offer, hv]) rfl
    simp [dutyBroken, Pins.controlsKnown, Pins.offer, hv]
  · rw [step_cons rfl, step_cons rfl]
    refine clockEdge_congr ?_ rfl rfl (by simp [handsOver, outValid, hov])
    have hknown : Pins.controlsKnown { pins with outReady := some y } = pins.controlsKnown := by
      simp [Pins.controlsKnown, hx]
    rw [dutyBroken, hknown]
    rfl

end Sys2Proof.Proofs
end
